-- ==== Sys2Proof/Word.lean ====
section
/-!
DEFINITION. The words of the block: a byte, a u32, the command word and the response word
(spec 00_scope.md R7, 30_encoding.md R50, R51).
-/

namespace Sys2Proof

/-- A byte of the buffer, a table index (R7: "an unsigned 8-bit value 0 to 255"). -/
abbrev Byte := BitVec 8

/-- A `u32` (R7): the polynomial, a table entry, the accumulator, a result, an address, a length (R4, R6). -/
abbrev U32 := BitVec 32

/-- A command word `CMD72` (R50): presented whole, bit 71 the most significant. -/
abbrev CmdWord := BitVec 72

/-- A response word `RSP40` (R51). -/
abbrev RspWord := BitVec 40

end Sys2Proof
end

