-- ==== Sys2Proof/Config.lean ====
section
/-!
DEFINITION. The free values: what the spec leaves unspecified (10_state.md R19, R23; 70_reset_and_hazards.md R151;
93_implementation_defined.md U6). Each is a constant without a body, applied to the counter `State.draws`, so nothing
can be proved of the value. The block has no build-time parameter: R4 fixes the constants, R5 makes the polynomial an
operand, and `mem` (R6) is part of State.
-/

namespace Sys2Proof

/-- The accumulator `CRC` where the spec leaves it unspecified: after `BUILD`, `RDTBL`, an error or a reset
(R19, R23, R128). Log entries 2, 3, 4. -/
opaque Config.freeCrc : Nat → U32

/-- The polynomial register `POLY` after a reset of a run (R23, R150). Log entries 3, 4. -/
opaque Config.freePoly : Nat → U32

/-- The table entries after a reset of a run (R23, R150): one free value per entry. Log entries 3, 4. -/
opaque Config.freeEntry : Nat → Byte → U32

end Sys2Proof
end

