-- ==== Sys2Proof/Syntax.lean ====
section
/-!
DEFINITION. The three commands of the block, one constructor per row of spec/opcode_table.json (30_encoding.md R52, R53).
-/

namespace Sys2Proof

/-- A command with its operands (R52), apart from its transport. The operands have the widths of R52 by type, so a
table index above 255 cannot be expressed (40_table_build.md R76). -/
inductive Instr where
  /-- `BUILD poly` (R73): construct the table of the polynomial `poly`, any u32 (R5). -/
  | build (poly : U32)
  /-- `CALC base, len` (R93): the checksum of the `len` bytes at `base`. -/
  | calculate (base len : U32)
  /-- `RDTBL idx` (R76): read one table entry. -/
  | rdtbl (idx : Byte)
  deriving DecidableEq, Repr

end Sys2Proof
end

