-- ==== Sys2Proof/Machine/State.lean ====
section
/-!
DEFINITION. The state of the block and of what stands around it, as plain data (10_state.md R10, R20, R23; 20_memory.md
R30; 30_encoding.md R51, R57; 70_reset_and_hazards.md R150, R158), the reasons a step can stop, and the state after
power-up.
-/

namespace Sys2Proof.Machine

/-- `TABLE`: 256 entries of 32 bits, indexed by a byte (R11). -/
abbrev Table := Vector U32 256

/-- The buffer memory: a partial map from byte address to byte (R30), as a list of cells in canonical form
(`Memory.wf`): addresses strictly rising and below 2^32. At an unlisted address nothing answers (R30's `none`). -/
abbrev Memory := List Host.Cell

/-- A group: four bytes, `b0` at the lowest address (R33). -/
structure Group where
  b0 : Byte
  b1 : Byte
  b2 : Byte
  b3 : Byte
  deriving DecidableEq, Repr

/-- `SEQ`, the sequencer (R20). -/
inductive Seq where
  /-- Ready for a command. -/
  | idle
  /-- Inside a `BUILD`: the next entry to write (R75). -/
  | building (i : Nat)
  /-- Inside a `CALC`: the offset of the next group (R99). -/
  | calculating (base len : U32) (pos : Nat)
  deriving DecidableEq, Repr

/-- The errors of the block (60_exceptions.md R120). -/
inductive Err where
  /-- `E_ILLEGAL` (R121). -/
  | illegal
  /-- `E_NOTABLE` (R122). -/
  | noTable
  /-- `E_LOCKED` (R123). -/
  | locked
  /-- `E_LENGTH` (R124). -/
  | length
  /-- `E_RANGE` (R125). -/
  | range
  /-- `E_BUS` (R126). -/
  | bus
  deriving DecidableEq, Repr

/-- A response (R51, R129's "explicit result/error variants"): the result, or an error with its `info`. Its word is
`Response.word`. -/
inductive Response where
  | ok (val : U32)
  | error (e : Err) (info : U32)
  deriving DecidableEq, Repr

/-- A move of the host (R158; the change of memory: R30, R40, R41). -/
inductive HostMove where
  /-- A command word on the command port (R50, R57), its command run in the command-atomic reading, the normative one
  (R20). -/
  | command (w : CmdWord)
  /-- A command word on the command port, its command run in the small-step reading (R75, R99; log entry 9). -/
  | stepwise (w : CmdWord)
  /-- The reset input (R150). -/
  | reset
  /-- The host or the platform changes the buffer memory at one address: from now on the byte answers there, or
  (`none`) nothing answers. -/
  | memory (addr : U32) (v : Option Byte)
  deriving DecidableEq, Repr

/-- The machine. The first five fields are the block's whole state (R10); `mem`, `moves` and `responses` stand outside
the block; `draws` is the model's own. -/
structure State where
  /-- `TABLE` (R11). -/
  table : Table
  /-- `POLY` (R15): the polynomial of the last `BUILD`. -/
  poly : U32
  /-- `TV` (R16): a `BUILD` has completed since reset. -/
  tv : Bool
  /-- `CRC` (R19): the accumulator. -/
  crc : U32
  /-- `SEQ` (R20). -/
  seq : Seq
  /-- The buffer memory (R30). -/
  mem : Memory
  /-- The host's moves still to come, oldest first (log entry 5). -/
  moves : List HostMove
  /-- The responses delivered so far, newest first: the host's record (R128; log entry 6). -/
  responses : List Response
  /-- The MODEL's counter of free values drawn so far (log entry 3). -/
  draws : Nat
  deriving DecidableEq, Repr

/-- Why a step stops with a fault: never. Every error the spec names ends a command with a response and the block goes
on (R120, R128, R130), so the type has no constructor. Safe: no behaviour is cut short. -/
inductive Fault where
  deriving DecidableEq, Repr

/-- Why a step is refused. -/
inductive Refusal where
  /-- An instruction without a meaning in this model, by its mnemonic. Raised by a refused arm of `exec`; there is no
  such arm. Safe: the model stops where the block goes on. -/
  | notModelled (mnemonic : String)
  deriving DecidableEq, Repr

/-- The state after power-up, which is a reset (R23, R150): `TV` = 0, `SEQ` = `IDLE`.
DESIGN CHOICE, unsafe (log entry 1): `TABLE`, `POLY` and `CRC`, which the spec leaves unspecified, hold 0 as a
placeholder; no response depends on it (R151).
DESIGN CHOICE (log entries 3, 5, 6, 7): no memory answers, no move of the host is pending, no response has been
delivered, no free value drawn. -/
def State.reset : State where
  table := Vector.replicate 256 0#32
  poly := 0#32
  tv := false
  crc := 0#32
  seq := .idle
  mem := []
  moves := []
  responses := []
  draws := 0

end Sys2Proof.Machine
end

