-- ==== Sys2Proof/Machine/Ops.lean ====
section
/-!
DEFINITION. The named operations over the table, the buffer memory, the accumulator and the response port; ending a
command with a result or an error (60_exceptions.md R120, R128) and applying reset (70_reset_and_hazards.md R150).
-/

namespace Sys2Proof.Machine

/-! ## The table (10_state.md R11) -/

/-- `TABLE[i]`; a byte is always an index of the table. -/
def Table.get (t : Table) (i : Byte) : U32 := t[i.toNat]'i.isLt

/-- `TABLE[i] <- v`. -/
def Table.set (t : Table) (i : Byte) (v : U32) : Table := Vector.set t i.toNat v i.isLt

/-- The table whose entry `i` is `f i`. Irreducible so that no unification unfolds 256 entries; `Table.get_ofFn` says
what it is. -/
@[irreducible] def Table.ofFn (f : Byte → U32) : Table := Vector.ofFn fun i => f (BitVec.ofFin i)

/-! ## The buffer memory (20_memory.md R30 to R32) -/

/-- `mem(a)`: the byte at an address, or `none` where nothing answers (R30). -/
def Memory.read : Memory → Nat → Option Byte
  | [], _ => none
  | (x, v) :: m, a => if a = x then some v else Memory.read m a

/-- A cell in front of a memory, or nothing where no byte answers. -/
def Memory.cons (a : Nat) : Option Byte → Memory → Memory
  | none, m => m
  | some v, m => (a, v) :: m

/-- The host or the platform makes `v` what answers at `a`. The block never writes memory (R32). -/
def Memory.update : Memory → Nat → Option Byte → Memory
  | [], a, v => Memory.cons a v []
  | (x, w) :: m, a, v =>
    if a < x then Memory.cons a v ((x, w) :: m)
    else if a = x then Memory.cons a v m
    else (x, w) :: Memory.update m a v

/-- The canonical form from the address `lo` on: addresses strictly rising and inside the 2^32 bytes of R30. -/
def Memory.wfFrom : Nat → Memory → Bool
  | _, [] => true
  | lo, (x, _) :: m => decide (lo ≤ x) && decide (x < 2 ^ 32) && Memory.wfFrom (x + 1) m

/-- The canonical form of a memory. -/
def Memory.wf (m : Memory) : Bool := Memory.wfFrom 0 m

/-- `MemRead(addr, 4)` (R31): the four bytes from `addr` on, or a failure when any of them is unmapped. No alignment is
asked for (R36). -/
def Memory.readGroup (m : Memory) (addr : Nat) : Option Group :=
  match Memory.read m addr, Memory.read m (addr + 1), Memory.read m (addr + 2), Memory.read m (addr + 3) with
  | some b0, some b1, some b2, some b3 => some ⟨b0, b1, b2, b3⟩
  | _, _, _, _ => none

/-- The buffer of `n` bytes from `addr` on, `buf[k] = mem(addr + k)` (R30), or `none` when one of them is unmapped. -/
def Memory.buffer (m : Memory) : Nat → Nat → Option (List Byte)
  | _, 0 => some []
  | addr, n + 1 =>
    match Memory.read m addr, Memory.buffer m (addr + 1) n with
    | some b, some bs => some (b :: bs)
    | _, _ => none

/-! ## Responses (30_encoding.md R51, 60_exceptions.md R120) -/

/-- The status code of an error (R120). -/
def Err.code : Err → Byte
  | .illegal => 0x01#8
  | .noTable => 0x02#8
  | .locked => 0x03#8
  | .length => 0x04#8
  | .range => 0x05#8
  | .bus => 0x06#8

/-- `ST`: 0x00 for OK, else the error's code (R51, R120). -/
def Response.st : Response → Byte
  | .ok _ => 0x00#8
  | .error e _ => Err.code e

/-- `VAL`: the result, or the error's `info` (R51). -/
def Response.val : Response → U32
  | .ok v => v
  | .error _ info => info

/-- The response word `RSP40`: `ST` in bits [39:32], `VAL` in bits [31:0] (R51). -/
def Response.word (r : Response) : RspWord := Response.st r ++ Response.val r

/-! ## Ending a command -/

/-- `CRC` becomes unspecified (R19): a free value. -/
def State.loseCrc (s : State) : State :=
  { s with crc := Config.freeCrc s.draws, draws := s.draws + 1 }

/-- The response is delivered and the sequencer returns to `IDLE` (R20, R57). -/
def State.deliver (r : Response) (s : State) : State :=
  { s with seq := .idle, responses := r :: s.responses }

/-- `respond OK(v)` (00_scope.md R8). -/
def State.respondOk (v : U32) (s : State) : State := State.deliver (.ok v) s

/-- `raise E(info)` (00_scope.md R8): the command ends with an error response. `TV`, `POLY`, `TABLE` and the memory are
as they were at acceptance, `SEQ` = `IDLE`, `CRC` is unspecified (R128). No handler, no saved state, no mode (R129). -/
def State.raise (e : Err) (info : U32) (s : State) : State :=
  State.deliver (.error e info) (State.loseCrc s)

/-! ## Reset (70_reset_and_hazards.md R150, R152) -/

/-- The reset input, in any state: `TV` = 0, `SEQ` = `IDLE`, and `TABLE`, `POLY`, `CRC` unspecified: free values, since
R151 asks for neither zero nor one fixed value. A command in progress is abandoned without a response (R152). What
stands outside the block is untouched. -/
def State.applyReset (s : State) : State :=
  { s with
    table := Table.ofFn (Config.freeEntry s.draws)
    poly := Config.freePoly s.draws
    tv := false
    crc := Config.freeCrc s.draws
    seq := .idle
    draws := s.draws + 1 }

end Sys2Proof.Machine
end

