-- ==== Sys2Proof/Machine/Crc.lean ====
section
/-!
DEFINITION. The pure functions of the block (40_table_build.md R70; 41_calculate.md R90 to R92) and the forms the spec
calls equal to them (R71, R97, R98).
-/

namespace Sys2Proof.Machine

/-- `INIT` (00_scope.md R4). -/
def initCrc : U32 := 0xFFFFFFFF#32

/-- `BUILD_ITER` (R4). -/
def buildIter : Nat := 8

/-- One iteration of R70: the test is made on `c` before the shift, the polynomial enters after it. -/
def shiftStep (p c : U32) : U32 := if c.getLsbD 31 then (c <<< 1) ^^^ p else c <<< 1

/-- `n` iterations of R70. -/
def shiftSteps (p : U32) : Nat → U32 → U32
  | 0, c => c
  | n + 1, c => shiftSteps p n (shiftStep p c)

/-- The byte placed in the top octet: `zext_32(i) << 24` (R70). -/
def topOctet (i : Byte) : U32 := i.setWidth 32 <<< 24

/-- `TableEntry(p, i)` (R70). -/
def tableEntry (p : U32) (i : Byte) : U32 := shiftSteps p buildIter (topOctet i)

/-- `(c >> 24) ^ b`, the table index of R90: the top octet of `c` exclusive-or the byte. -/
def updIndex (c : U32) (b : Byte) : Byte := (c >>> 24).setWidth 8 ^^^ b

/-- `Upd(T, c, b)` (R90). -/
def upd (T : Table) (c : U32) (b : Byte) : U32 := (c <<< 8) ^^^ Table.get T (updIndex c b)

/-- `GroupStep(T, c, g)` (R91): byte 3 first, byte 0 last. -/
def groupStep (T : Table) (c : U32) (g : Group) : U32 :=
  upd T (upd T (upd T (upd T c g.b3) g.b2) g.b1) g.b0

/-- The loop of R92 from the accumulator `c`: whole groups in increasing order; no value when bytes are left over. -/
def foldGroups (T : Table) : U32 → List Byte → Option U32
  | c, [] => some c
  | c, b0 :: b1 :: b2 :: b3 :: rest => foldGroups T (groupStep T c ⟨b0, b1, b2, b3⟩) rest
  | _, _ => none

/-- `CalcBytes(T, buf)` (R92): the accumulator after the last byte, as it stands. It has no value on a length that is
not a multiple of 4 (R94). -/
def calcBytes (T : Table) (buf : List Byte) : Option U32 := foldGroups T initCrc buf

/-! ## Equivalent forms -/

/-- An iteration of R70 on unbounded integers, as the source writes it (R71). -/
def shiftStepNat (p c : Nat) : Nat := if c.testBit 31 then (c <<< 1) ^^^ p else c <<< 1

/-- `n` iterations on unbounded integers (R71). -/
def shiftStepsNat (p : Nat) : Nat → Nat → Nat
  | 0, c => c
  | n + 1, c => shiftStepsNat p n (shiftStepNat p c)

/-- The table entry on unbounded integers, truncated once at the end: "store `c & 0xFFFFFFFF`" (R71). -/
def tableEntryNat (p i : Nat) : Nat := shiftStepsNat p buildIter (i <<< 24) % 2 ^ 32

/-- The group read as one little-endian word: byte 0 in bits 7:0 (R34). -/
def Group.word (g : Group) : U32 := ((g.b3 ++ g.b2) ++ g.b1) ++ g.b0

/-- The word form of a group step: most significant byte of the word first (R97). -/
def groupStepWord (T : Table) (c w : U32) : U32 :=
  upd T (upd T (upd T (upd T c (w.extractLsb' 24 8)) (w.extractLsb' 16 8)) (w.extractLsb' 8 8)) (w.extractLsb' 0 8)

/-- The bit-serial form of an update (R98): `Shift8(p, c ^ (zext_32(b) << 24))`. -/
def updSerial (p c : U32) (b : Byte) : U32 := shiftSteps p 8 (c ^^^ topOctet b)

/-- The plain most-significant-bit-first shift-register CRC over a byte stream (R98). -/
def serialCrc (p : U32) : U32 → List Byte → U32
  | c, [] => c
  | c, b :: bs => serialCrc p (updSerial p c b) bs

/-- The byte stream of R98: `buf[3], buf[2], buf[1], buf[0], buf[7], …`; no value when bytes are left over. -/
def visitOrder : List Byte → Option (List Byte)
  | [] => some []
  | b0 :: b1 :: b2 :: b3 :: rest => (visitOrder rest).map fun l => b3 :: b2 :: b1 :: b0 :: l
  | _ => none

end Sys2Proof.Machine
end

