-- ==== Sys2Proof/Machine/Flags.lean ====
section
/-!
DEFINITION. The one status flag of the block, `TV` (10_state.md R16). There are no condition codes: the arithmetic
produces no flags (R16, 41_calculate.md R101).
-/

namespace Sys2Proof.Machine

/-- `TV` is read by `BUILD`, `CALC` and `RDTBL` (R16). -/
def State.tableValid (s : State) : Bool := s.tv

/-- `TV <- 1`, by a successful `BUILD` and nothing else (R16). -/
def State.setTableValid (s : State) : State := { s with tv := true }

end Sys2Proof.Machine
end

