-- ==== Sys2Proof/Machine/Operands.lean ====
section
/-!
DEFINITION. The operand checks and the addressing of `CALC` (41_calculate.md R93, R101, R103), in unbounded integers
(00_scope.md R8). `BUILD` takes its operand as it is (R73); `RDTBL`'s is a table index (R76).
-/

namespace Sys2Proof.Machine

/-- The size of the buffer memory's address space, 2^32 bytes (20_memory.md R30). -/
def addressTop : Nat := 2 ^ 32

/-- The length check (R94): `len` is a multiple of 4. -/
def lengthOk (len : U32) : Bool := len.toNat % 4 == 0

/-- The range check (R93, R125): the buffer does not pass the top of the address space. -/
def rangeOk (base len : U32) : Bool := decide (base.toNat + len.toNat ≤ addressTop)

/-- How many groups a buffer of `len` bytes has (R37). -/
def groupCount (len : U32) : Nat := len.toNat / 4

/-- The address `base + pos` of the byte at offset `pos` of a buffer (R30, R103). -/
def bufferAddr (base : U32) (pos : Nat) : Nat := base.toNat + pos

/-- The `info` of `E_BUS`: the failing group's first address, a u32 (R126). -/
def busInfo (addr : Nat) : U32 := BitVec.ofNat 32 addr

end Sys2Proof.Machine
end

