-- ==== Sys2Proof/Machine/CalcCommand.lean ====
section
/-!
DEFINITION. The calculation family: `CALC` (41_calculate.md R93).
-/

namespace Sys2Proof.Machine

/-- How the group loop of R93 ends. -/
inductive CalcEnd where
  /-- All groups absorbed; the accumulator. -/
  | sum (c : U32)
  /-- A group read failed; the group's address (R126). -/
  | bus (addr : Nat)
  deriving DecidableEq, Repr

/-- The group loop of R93: `k` groups from `addr` on, in increasing order, each read once (R37). -/
def calcLoop (T : Table) (m : Memory) : Nat → Nat → U32 → CalcEnd
  | 0, _, c => .sum c
  | k + 1, addr, c =>
    match Memory.readGroup m addr with
    | none => .bus addr
    | some g => calcLoop T m k (addr + 4) (groupStep T c g)

/-- `CRC <- c` (R19). -/
def State.setCrc (c : U32) (s : State) : State := { s with crc := c }

/-- The checks of R93 that come before any memory read, in the order of R127. -/
def calcCheck (base len : U32) (s : State) : Option (Err × U32) :=
  match State.tableValid s, lengthOk len, rangeOk base len with
  | false, _, _ => some (.noTable, 0#32)
  | true, false, _ => some (.length, len)
  | true, true, false => some (.range, base)
  | true, true, true => none

/-- `CALC base, len` (R93). -/
def execCalc (base len : U32) (s : State) : Host.Outcome State Fault Refusal :=
  match calcCheck base len s with
  | some (e, info) => .next (State.raise e info s)
  | none =>
    match calcLoop s.table s.mem (groupCount len) (bufferAddr base 0) initCrc with
    | .sum c => .next (State.respondOk c (State.setCrc c s))
    | .bus addr => .next (State.raise .bus (busInfo addr) s)

end Sys2Proof.Machine
end

