-- ==== Sys2Proof/Machine/TableCommands.lean ====
section
/-!
DEFINITION. The table family: `BUILD` (40_table_build.md R73) and `RDTBL` (R76).
-/

namespace Sys2Proof.Machine

/-- `POLY <- poly` and `TABLE[i] <- TableEntry(poly, i)` for every `i` (R73). -/
def State.writeTable (poly : U32) (s : State) : State :=
  { s with poly := poly, table := Table.ofFn (tableEntry poly) }

/-- `BUILD poly` (R73). A second `BUILD` is refused with `E_LOCKED(0)` (R123). `CRC` becomes unspecified (R19). -/
def execBuild (poly : U32) (s : State) : Host.Outcome State Fault Refusal :=
  match State.tableValid s with
  | true => .next (State.raise .locked 0#32 s)
  | false => .next (State.respondOk 0#32 (State.loseCrc (State.setTableValid (State.writeTable poly s))))

/-- `RDTBL idx` (R76). Without a table it is refused with `E_NOTABLE(0)` (R122). `CRC` is unspecified afterwards
(R19). -/
def execRdtbl (idx : Byte) (s : State) : Host.Outcome State Fault Refusal :=
  match State.tableValid s with
  | true => .next (State.respondOk (Table.get s.table idx) (State.loseCrc s))
  | false => .next (State.raise .noTable 0#32 s)

end Sys2Proof.Machine
end

