-- ==== Sys2Proof/Machine/Dispatch.lean ====
section
/-!
DEFINITION. The dispatch: one arm per row of the opcode map (30_encoding.md R53).
-/

namespace Sys2Proof.Machine

def exec (i : Instr) (s : State) : Host.Outcome State Fault Refusal :=
  match i with
  | .build poly => Sys2Proof.Machine.execBuild poly s
  | .calculate base len => Sys2Proof.Machine.execCalc base len s
  | .rdtbl idx => Sys2Proof.Machine.execRdtbl idx s

end Sys2Proof.Machine
end

