-- ==== Sys2Proof/WellFormed.lean ====
section
/-!
DEFINITION. Well-formedness. Of a command word: it matches a row of the opcode map by mask and match
(30_encoding.md R53); this says apart from the decoder which of the 2^72 words are commands. Of an instruction: nothing
is left to check, since each operand has its width by type.
-/

namespace Sys2Proof

/-- A row of the opcode map (R53): a word `c` selects the row when `c & mask = match`. -/
structure OpcodeRow where
  mnemonic : String
  mask : CmdWord
  pattern : CmdWord
  deriving DecidableEq, Repr

/-- The mask and match columns of R53 for the row of an instruction. -/
def Instr.row : Instr → OpcodeRow
  | .build _ => ⟨"BUILD", 0xFF00000000FFFFFFFF#72, 0x010000000000000000#72⟩
  | .calculate _ _ => ⟨"CALC", 0xFF0000000000000000#72, 0x020000000000000000#72⟩
  | .rdtbl _ => ⟨"RDTBL", 0xFFFFFFFF00FFFFFFFF#72, 0x030000000000000000#72⟩

/-- The opcode map, complete (R53). -/
def opcodeMap : List OpcodeRow :=
  [Instr.row (.build 0), Instr.row (.calculate 0 0), Instr.row (.rdtbl 0)]

/-- A word selects a row (R53). -/
def OpcodeRow.selects (r : OpcodeRow) (w : CmdWord) : Bool := w &&& r.mask == r.pattern

/-- A command word is well formed when some row of the opcode map selects it; every other word is illegal (R54, R55). -/
def CmdWord.wellFormed (w : CmdWord) : Bool := opcodeMap.any fun r => r.selects w

/-- Every instruction is well formed: `poly`, `base`, `len` are any u32 and `idx` any byte (R52). The operand checks
of `CALC` (length, range) are semantic, not of its form (R53). -/
def Instr.wellFormed : Instr → Bool
  | .build _ => true
  | .calculate _ _ => true
  | .rdtbl _ => true

end Sys2Proof
end

