-- ==== Sys2Proof/Decode.lean ====
section
/-!
DEFINITION. The decoder, total on the 2^72 command words (30_encoding.md R50, R52 to R56), and the encoder written from
the same rules.
-/

namespace Sys2Proof

/-- Field `OP`, bits [71:64] (R50). -/
def CmdWord.op (w : CmdWord) : Byte := w.extractLsb' 64 8

/-- Field `A`, bits [63:32] (R50). -/
def CmdWord.a (w : CmdWord) : U32 := w.extractLsb' 32 32

/-- Field `B`, bits [31:0] (R50). -/
def CmdWord.b (w : CmdWord) : U32 := w.extractLsb' 0 32

/-- Why a word is illegal. Both raise `E_ILLEGAL` (60_exceptions.md R121). -/
inductive Illegal where
  /-- `OP` is none of 0x01, 0x02, 0x03 (R55). -/
  | opcode
  /-- A reserved field is not zero (R54). -/
  | reserved
  deriving DecidableEq, Repr

/-- What a word decodes to (R55). -/
inductive Decoded where
  | instr (i : Instr)
  | illegal (why : Illegal)
  deriving DecidableEq, Repr

/-- `A[31:8]` of `RDTBL`, reserved, must be 0 (R52). -/
def CmdWord.rdtblReserved (w : CmdWord) : BitVec 24 := (CmdWord.a w).extractLsb' 8 24

/-- `idx = A[7:0]` of `RDTBL` (R52). -/
def CmdWord.rdtblIdx (w : CmdWord) : Byte := (CmdWord.a w).extractLsb' 0 8

/-- The decoder (R53, R54, R55): by `OP`, then the reserved fields. -/
def decode (w : CmdWord) : Decoded :=
  if CmdWord.op w = 0x01#8 then
    if CmdWord.b w = 0#32 then .instr (.build (CmdWord.a w)) else .illegal .reserved
  else if CmdWord.op w = 0x02#8 then .instr (.calculate (CmdWord.a w) (CmdWord.b w))
  else if CmdWord.op w = 0x03#8 then
    if CmdWord.rdtblReserved w = 0#24 ∧ CmdWord.b w = 0#32 then .instr (.rdtbl (CmdWord.rdtblIdx w))
    else .illegal .reserved
  else .illegal .opcode

/-- `CMD72` from its fields, `OP` in the highest bits (R50). -/
def cmdWord (op : Byte) (a b : U32) : CmdWord := (op ++ a) ++ b

/-- The encoder (R52, R53): every reserved field is zero. -/
def encode : Instr → CmdWord
  | .build poly => cmdWord 0x01#8 poly 0#32
  | .calculate base len => cmdWord 0x02#8 base len
  | .rdtbl idx => cmdWord 0x03#8 (0#24 ++ idx) 0#32

/-- The word of `CMD72` that a row of the opcode table numbers: one word of 72 bits, bit 0 its least significant; a
command is presented whole and has no byte order (R50). -/
def tableWord (nbits w : Nat) : CmdWord := BitVec.ofNat 72 (w % 2 ^ nbits)

/-- What the decoder reads from a word numbered as the opcode table numbers it. A word longer than 72 bits is no
command (R56). -/
def decodeTableWord (nbits w : Nat) : Option Instr :=
  if w % 2 ^ nbits < 2 ^ 72 then
    match decode (tableWord nbits w) with
    | .instr i => some i
    | .illegal _ => none
  else none

end Sys2Proof
end

