-- ==== Sys2Proof/Machine/SmallStep.lean ====
section
/-!
DEFINITION. The small-step reading of the commands (40_table_build.md R75, 41_calculate.md R99): acceptance, and one
internal step of a busy sequencer. The command-atomic reading of the meanings is the normative one (10_state.md R20).
-/

namespace Sys2Proof.Machine

/-- Acceptance of `BUILD poly` (R75): `POLY <- poly`, `SEQ <- BUILDING(0)`. -/
def acceptBuild (poly : U32) (s : State) : State :=
  match State.tableValid s with
  | true => State.raise .locked 0#32 s
  | false => { s with poly := poly, seq := .building 0 }

/-- Acceptance of `CALC base, len` (R99): the checks; then `CRC <- INIT`, `SEQ <- CALCULATING(base, len, 0)`. -/
def acceptCalc (base len : U32) (s : State) : State :=
  match calcCheck base len s with
  | some (e, info) => State.raise e info s
  | none => { s with crc := initCrc, seq := .calculating base len 0 }

/-- Acceptance of `RDTBL idx`: one step, which responds (70_reset_and_hazards.md R157). -/
def acceptRdtbl (idx : Byte) (s : State) : State :=
  match State.tableValid s with
  | true => State.respondOk (Table.get s.table idx) (State.loseCrc s)
  | false => State.raise .noTable 0#32 s

/-- Acceptance of a command in the small-step reading. -/
def accept : Instr → State → State
  | .build poly, s => acceptBuild poly s
  | .calculate base len, s => acceptCalc base len s
  | .rdtbl idx, s => acceptRdtbl idx s

/-- A step in `BUILDING(i)` (R75). The last one makes the table valid and responds; `CRC` becomes unspecified with it
(R73, R19). -/
def buildingStep (i : Nat) (s : State) : State :=
  if i < 256 then
    { s with
      table := Table.set s.table (BitVec.ofNat 8 i) (tableEntry s.poly (BitVec.ofNat 8 i))
      seq := .building (i + 1) }
  else State.respondOk 0#32 (State.loseCrc (State.setTableValid s))

/-- A step in `CALCULATING(base, len, pos)` (R99). -/
def calculatingStep (base len : U32) (pos : Nat) (s : State) : State :=
  if pos < len.toNat then
    match Memory.readGroup s.mem (bufferAddr base pos) with
    | none => State.raise .bus (busInfo (bufferAddr base pos)) s
    | some g => { s with crc := groupStep s.table s.crc g, seq := .calculating base len (pos + 4) }
  else State.respondOk s.crc s

/-- One internal step; an idle block has none (10_state.md R20). -/
def microStep (s : State) : State :=
  match s.seq with
  | .idle => s
  | .building i => buildingStep i s
  | .calculating base len pos => calculatingStep base len pos s

/-- `n` internal steps. -/
def microSteps : Nat → State → State
  | 0, s => s
  | n + 1, s => microSteps n (microStep s)

/-- How many internal steps after acceptance a command takes at most (R75, R99, R157). -/
def internalSteps : Instr → Nat
  | .build _ => 257
  | .calculate _ len => groupCount len + 1
  | .rdtbl _ => 0

end Sys2Proof.Machine
end

