-- ==== Sys2Proof/Machine/Port.lean ====
section
/-!
DEFINITION. The ports: what the block does with the next move of the host (30_encoding.md R55, R57;
70_reset_and_hazards.md R150, R152, R158).
-/

namespace Sys2Proof.Machine

/-- What the next step is. -/
inductive Fetched where
  /-- A command is accepted: run it, to its response, from this state. -/
  | run (i : Instr) (s : State)
  /-- Anything else: the state after it. -/
  | done (s : State)
  deriving DecidableEq, Repr

/-- The host's next move has been taken. -/
def State.takeMove (rest : List HostMove) (s : State) : State := { s with moves := rest }

/-- The buffer memory changes at one address (20_memory.md R30, R41). -/
def State.changeMemory (addr : U32) (v : Option Byte) (s : State) : State :=
  { s with mem := Memory.update s.mem addr.toNat v }

/-- A command word at the port of an idle block (R53, R55): an illegal word raises `E_ILLEGAL(0)` (R121). -/
def acceptWord (w : CmdWord) (s : State) : Fetched :=
  match decode w with
  | .instr i => .run i s
  | .illegal _ => .done (State.raise .illegal 0#32 s)

/-- The same in the small-step reading: a command is only accepted (R75, R99). -/
def acceptStepwise (w : CmdWord) (s : State) : Fetched :=
  match decode w with
  | .instr i => .done (accept i s)
  | .illegal _ => .done (State.raise .illegal 0#32 s)

/-- The next step. Reset acts in any state and abandons a command in progress (R150, R152). A busy block takes an
internal step and its command port is not ready (R57). An idle block takes the host's next move; without one nothing
happens (R158). -/
def fetch (s : State) : Fetched :=
  match s.moves, s.seq with
  | .reset :: rest, _ => .done (State.applyReset (State.takeMove rest s))
  | _, .building _ => .done (microStep s)
  | _, .calculating _ _ _ => .done (microStep s)
  | [], .idle => .done s
  | .command w :: rest, .idle => acceptWord w (State.takeMove rest s)
  | .stepwise w :: rest, .idle => acceptStepwise w (State.takeMove rest s)
  | .memory addr v :: rest, .idle => .done (State.changeMemory addr v (State.takeMove rest s))

end Sys2Proof.Machine
end

