-- ==== Sys2Proof/Machine/Step.lean ====
section
/-!
DEFINITION. One step of the machine, and the state in which the next step runs a given command word.
-/

namespace Sys2Proof.Machine

/-- One step: an accepted command runs to its response (command-atomic, 10_state.md R20); everything else is said by
`fetch`. -/
def step (s : State) : Host.Outcome State Fault Refusal :=
  match fetch s with
  | .run i t => exec i t
  | .done t => .next t

/-- The host presents a command word, numbered as the opcode table numbers it, as its next move to a ready block
(log entry 5). -/
def State.withFetchWord (s : State) (nbits w : Nat) : State :=
  { s with seq := .idle, moves := .command (tableWord nbits w) :: s.moves }

end Sys2Proof.Machine
end

