-- ==== Sys2Proof/Machine/Asm.lean ====
section
/-!
DEFINITION. The text form of commands and words (30_encoding.md R50, R51, R58), on lists of characters. What R58 leaves
open of the layout (white space, the case of hexadecimal digits) is log entry 15.
-/

namespace Sys2Proof.Machine

/-- The value of a decimal digit. -/
def decDigit (c : Char) : Option Nat :=
  if '0' ≤ c ∧ c ≤ '9' then some (c.toNat - 48) else none

/-- The value of a hexadecimal digit, in either case. -/
def hexDigit (c : Char) : Option Nat :=
  if '0' ≤ c ∧ c ≤ '9' then some (c.toNat - 48)
  else if 'A' ≤ c ∧ c ≤ 'F' then some (c.toNat - 55)
  else if 'a' ≤ c ∧ c ≤ 'f' then some (c.toNat - 87)
  else none

/-- The value of a sequence of digits to a radix, from the value read so far; no value when a character is no digit. -/
def digitsFrom (radix : Nat) (digit : Char → Option Nat) : Nat → List Char → Option Nat
  | acc, [] => some acc
  | acc, c :: cs =>
    match digit c with
    | some d => digitsFrom radix digit (acc * radix + d) cs
    | none => none

/-- A number: decimal, or hexadecimal with the prefix `0x` (R58). -/
def number : List Char → Option Nat
  | [] => none
  | ['0', 'x'] => none
  | '0' :: 'x' :: ds => digitsFrom 16 hexDigit 0 ds
  | ds => digitsFrom 10 decDigit 0 ds

/-- A u32 operand (R58). -/
def numberU32 (t : List Char) : Option U32 :=
  match number t with
  | some n => if n < 2 ^ 32 then some (BitVec.ofNat 32 n) else none
  | none => none

/-- A table index, 0 to 255 (R58). -/
def numberIdx (t : List Char) : Option Byte :=
  match number t with
  | some n => if n < 256 then some (BitVec.ofNat 8 n) else none
  | none => none

/-- A token, given its characters in reverse, in front of other tokens. -/
def pushToken (cur : List Char) (ts : List (List Char)) : List (List Char) :=
  if cur.isEmpty then ts else cur.reverse :: ts

/-- The tokens of a line, up to its comment (R58: a `;` starts a comment); `cur` is the token being read, reversed. -/
def tokens : List Char → List Char → List (List Char)
  | cur, [] => pushToken cur []
  | cur, c :: cs =>
    if c = ';' then pushToken cur []
    else if c = ' ' ∨ c = '\t' then pushToken cur (tokens [] cs)
    else if c = ',' then pushToken cur ([','] :: tokens [] cs)
    else tokens (c :: cur) cs

/-- The names of R58, upper case. -/
def mnemonicBuild : List Char := ['B', 'U', 'I', 'L', 'D']
def mnemonicCalc : List Char := ['C', 'A', 'L', 'C']
def mnemonicRdtbl : List Char := ['R', 'D', 'T', 'B', 'L']
def directiveCmd : List Char := ['.', 'c', 'm', 'd']

/-- `BUILD <poly>`: the word has zero in every reserved field (R58). -/
def assembleBuild : List (List Char) → Option CmdWord
  | [p] => (numberU32 p).map fun poly => encode (.build poly)
  | _ => none

/-- `CALC <base>, <len>` (R58). -/
def assembleCalc : List (List Char) → Option CmdWord
  | [b, [','], l] =>
    match numberU32 b, numberU32 l with
    | some base, some len => some (encode (.calculate base len))
    | _, _ => none
  | _ => none

/-- `RDTBL <idx>` (R58). -/
def assembleRdtbl : List (List Char) → Option CmdWord
  | [i] => (numberIdx i).map fun idx => encode (.rdtbl idx)
  | _ => none

/-- `.cmd <18 hex digits>` emits the word as given (R58). -/
def assembleCmd : List (List Char) → Option CmdWord
  | [ds] => if ds.length = 18 then (digitsFrom 16 hexDigit 0 ds).map fun n => BitVec.ofNat 72 n else none
  | _ => none

/-- A command from its tokens (R58). -/
def assembleTokens : List (List Char) → Option CmdWord
  | [] => none
  | m :: ops =>
    if m = mnemonicBuild then assembleBuild ops
    else if m = mnemonicCalc then assembleCalc ops
    else if m = mnemonicRdtbl then assembleRdtbl ops
    else if m = directiveCmd then assembleCmd ops
    else none

/-- One line of text: the command words it holds, none for a blank line, one otherwise (R58: one command per line).
`none` when the assembler refuses the line. -/
def assembleLine (line : List Char) : Option (List CmdWord) :=
  match tokens [] line with
  | [] => some []
  | ts => (assembleTokens ts).map fun w => [w]

/-- A text, line by line (R58). -/
def assemble : List (List Char) → Option (List CmdWord)
  | [] => some []
  | line :: rest =>
    match assembleLine line, assemble rest with
    | some ws, some more => some (ws ++ more)
    | _, _ => none

/-! ## Words and commands as text -/

/-- The character of a hexadecimal digit, upper case. -/
def hexChar (d : Nat) : Char := if d < 10 then Char.ofNat (48 + d) else Char.ofNat (55 + d)

/-- The last `k` hexadecimal digits of a number, the highest first, in front of `tail`. -/
def hexText : Nat → Nat → List Char → List Char
  | 0, _, tail => tail
  | k + 1, n, tail => hexText k (n / 16) (hexChar (n % 16) :: tail)

/-- A command word as text: 18 hexadecimal digits, `OP` first (R50). -/
def cmdText (w : CmdWord) : List Char := hexText 18 w.toNat []

/-- A response word as text: 10 hexadecimal digits, `ST` first (R51). -/
def rspText (r : RspWord) : List Char := hexText 10 r.toNat []

/-- A u32 operand as text: `0x` and eight digits (00_scope.md R7). -/
def u32Text (v : U32) : List Char := '0' :: 'x' :: hexText 8 v.toNat []

/-- A command as text (R58). -/
def instrText : Instr → List Char
  | .build poly => mnemonicBuild ++ ' ' :: u32Text poly
  | .calculate base len => mnemonicCalc ++ ' ' :: (u32Text base ++ ',' :: ' ' :: u32Text len)
  | .rdtbl idx => mnemonicRdtbl ++ ' ' :: u32Text (idx.setWidth 32)

end Sys2Proof.Machine
end

