-- ==== Sys2Proof/Safety.lean ====
section
/-!
DEFINITION. What the claims about whole runs are stated in: the invariant of the machine (10_state.md R14, R20) and
what the host can tell of a state (R19, R23; 70_reset_and_hazards.md R151).
-/

namespace Sys2Proof.Machine

/-- R14: with `TV` = 1 every entry is the one of the polynomial register. -/
def State.TableMatches (s : State) : Prop := s.tv = true → ∀ i : Byte, Table.get s.table i = tableEntry s.poly i

/-- The sequencer holds a legal value (R20) and what R75 and R99 have established by then. -/
def State.SeqLegal (s : State) : Prop :=
  match s.seq with
  | .idle => True
  | .building i =>
    i ≤ 256 ∧ s.tv = false ∧ ∀ j : Byte, j.toNat < i → Table.get s.table j = tableEntry s.poly j
  | .calculating base len pos =>
    s.tv = true ∧ lengthOk len = true ∧ rangeOk base len = true ∧ pos % 4 = 0 ∧ pos ≤ len.toNat ∧
      calcLoop s.table s.mem (pos / 4) (bufferAddr base 0) initCrc = .sum s.crc

/-- The invariant of the machine. -/
structure State.Inv (s : State) : Prop where
  memory : Memory.wf s.mem = true
  table : State.TableMatches s
  seq : State.SeqLegal s

/-- Two states agree on the elements that a busy sequencer has given a value (R75, R99). -/
def State.SameProgress (s t : State) : Prop :=
  match s.seq with
  | .idle => True
  | .building i => s.poly = t.poly ∧ ∀ j : Byte, j.toNat < i → Table.get s.table j = Table.get t.table j
  | .calculating _ _ _ => s.table = t.table ∧ s.crc = t.crc

/-- Two states differ in unspecified elements only: they agree on `TV`, `SEQ`, the memory, the host's moves and the
responses, on the table when it is valid, and on what a busy sequencer has written. Of `POLY`, `CRC`, an invalid table
and the counter of free values nothing is asked (R15, R19, R23). -/
structure State.SameButUnspecified (s t : State) : Prop where
  tv : s.tv = t.tv
  seq : s.seq = t.seq
  mem : s.mem = t.mem
  moves : s.moves = t.moves
  responses : s.responses = t.responses
  table : s.tv = true → s.table = t.table
  progress : State.SameProgress s t

/-- The block itself is as before, but for `CRC`: `TV`, `POLY` and every table entry (60_exceptions.md R128). -/
structure State.SameTable (s t : State) : Prop where
  tv : t.tv = s.tv
  poly : t.poly = s.poly
  table : t.table = s.table

/-- The frame of a command: it ends in `IDLE`, the buffer memory and the host's further moves are as before
(20_memory.md R32), and exactly one response has been delivered (30_encoding.md R57). -/
structure State.CommandFrame (s t : State) (r : Response) : Prop where
  idle : t.seq = .idle
  memory : ∀ a : Nat, Memory.read t.mem a = Memory.read s.mem a
  moves : t.moves = s.moves
  responses : t.responses = r :: s.responses

end Sys2Proof.Machine
end

