-- ==== Sys2Proof/Certificates/Slice0/Obligations.lean ====
section
/-!
DEFINITION. The statements for the provers, each from the numbered rules of spec/ that its docstring names; what a
statement takes from a choice of the model, its docstring names by log entry. No statement says which value a free value
has (`CRC` after `BUILD`, `RDTBL` or an error; `TABLE`, `POLY`, `CRC` after a reset); the refinements of the small-step
reading say that both readings draw the same one (log entry 3).
-/

open Sys2Proof Sys2Proof.Machine

/-! ## Encoding (30_encoding.md) -/

/-- R52, R53: decoding the word of a well-formed instruction gives the instruction back, for all operands. -/
def Obligations.DecodeOfEncodeIsTheInstruction : Prop :=
  ∀ i : Instr, Instr.wellFormed i = true → decode (encode i) = .instr i

/-- R53: each command has one word, the one the encoder writes. -/
def Obligations.EncodeOfDecodeIsTheWord : Prop :=
  ∀ (w : CmdWord) (i : Instr), decode w = .instr i → encode i = w

/-- R52, R53: which words decode to which command, by the bit positions of R50, and where each operand is taken from. -/
def Obligations.OperandsAreTheFieldsVerbatim : Prop :=
  ∀ w : CmdWord,
    (∀ poly : U32, decode w = .instr (.build poly) ↔
      w.extractLsb' 64 8 = 0x01#8 ∧ w.extractLsb' 32 32 = poly ∧ w.extractLsb' 0 32 = 0#32) ∧
    (∀ base len : U32, decode w = .instr (.calculate base len) ↔
      w.extractLsb' 64 8 = 0x02#8 ∧ w.extractLsb' 32 32 = base ∧ w.extractLsb' 0 32 = len) ∧
    (∀ idx : Byte, decode w = .instr (.rdtbl idx) ↔
      w.extractLsb' 64 8 = 0x03#8 ∧ w.extractLsb' 40 24 = 0#24 ∧ w.extractLsb' 32 8 = idx ∧
        w.extractLsb' 0 32 = 0#32)

/-- R53, R55: the decoder agrees with the mask and match columns of the opcode map: a word that selects a row decodes to
an instruction of that row, and every other word is illegal. -/
def Obligations.DecoderAgreesWithMaskAndMatch : Prop :=
  ∀ w : CmdWord,
    (∃ i : Instr, decode w = .instr i ∧ OpcodeRow.selects (Instr.row i) w = true ∧ CmdWord.wellFormed w = true) ∨
      (∃ why : Illegal, decode w = .illegal why ∧ CmdWord.wellFormed w = false)

/-- R53: "The three patterns are disjoint". -/
def Obligations.OpcodeRowsAreDisjoint : Prop :=
  ∀ (w : CmdWord) (r r' : OpcodeRow), r ∈ opcodeMap → r' ∈ opcodeMap →
    OpcodeRow.selects r w = true → OpcodeRow.selects r' w = true → r = r'

/-- R54: a non-zero reserved field makes the word illegal; R55: so does any other opcode. -/
def Obligations.ReservedBitsAndOtherOpcodesAreIllegal : Prop :=
  ∀ w : CmdWord,
    (w.extractLsb' 64 8 = 0x01#8 → w.extractLsb' 0 32 ≠ 0#32 → decode w = .illegal .reserved) ∧
    (w.extractLsb' 64 8 = 0x03#8 → (w.extractLsb' 40 24 ≠ 0#24 ∨ w.extractLsb' 0 32 ≠ 0#32) →
      decode w = .illegal .reserved) ∧
    (w.extractLsb' 64 8 ≠ 0x01#8 → w.extractLsb' 64 8 ≠ 0x02#8 → w.extractLsb' 64 8 ≠ 0x03#8 →
      decode w = .illegal .opcode)

/-- R59: the worked encodings decode to what they stand for. A sanity statement. -/
def Obligations.WorkedEncodingsDecode : Prop :=
  decode 0x0104C11DB700000000#72 = .instr (.build 0x04C11DB7#32) ∧
  decode 0x010000000000000000#72 = .instr (.build 0#32) ∧
  decode 0x022000020000000008#72 = .instr (.calculate 0x20000200#32 8#32) ∧
  decode 0x020000000000000000#72 = .instr (.calculate 0#32 0#32) ∧
  decode 0x03000000FF00000000#72 = .instr (.rdtbl 255#8) ∧
  decode 0x0104C11DB700000001#72 = .illegal .reserved ∧
  decode 0x030000010000000000#72 = .illegal .reserved ∧
  decode 0x000000000000000000#72 = .illegal .opcode ∧
  decode 0xA20000000000000000#72 = .illegal .opcode

/-- R51, with the codes of R120: `ST` is bits [39:32], 0x00 for OK and the code of the error otherwise; `VAL` is bits
[31:0], the result or the error's `info`. -/
def Obligations.ResponseWordLayout : Prop :=
  ∀ v : U32,
    ((Response.word (.ok v)).extractLsb' 32 8 = 0x00#8 ∧ (Response.word (.ok v)).extractLsb' 0 32 = v) ∧
    ∀ e : Err, (Response.word (.error e v)).extractLsb' 0 32 = v ∧
      (Response.word (.error e v)).extractLsb' 32 8 =
        match e with
        | .illegal => 0x01#8
        | .noTable => 0x02#8
        | .locked => 0x03#8
        | .length => 0x04#8
        | .range => 0x05#8
        | .bus => 0x06#8

/-- R51: a response word tells the host the status and the value: two responses with one word are equal. -/
def Obligations.ResponseWordsAreDistinct : Prop :=
  ∀ r r' : Response, Response.word r = Response.word r' → r = r'

/-- R58: the assembler reads the text form of every command as its word, and `.cmd` with the 18 digits of a word as that
word. The layout of the text (one space, `0x` and eight digits) is one that R58 shows. -/
def Obligations.AssemblerReadsCommandText : Prop :=
  (∀ i : Instr, assembleLine (instrText i) = some [encode i]) ∧
    ∀ w : CmdWord, assembleLine (directiveCmd ++ ' ' :: cmdText w) = some [w]

/-! ## The table functions (40_table_build.md) -/

/-- R71: truncating at every iteration and truncating once at the end give the same entry. -/
def Obligations.TruncationPointDoesNotMatter : Prop :=
  ∀ (p : U32) (i : Byte), (tableEntry p i).toNat = tableEntryNat p.toNat i.toNat

/-- R74 laws 1 to 3: the entries 0, 1 and 2 of every table. -/
def Obligations.FirstTableEntries : Prop :=
  ∀ p : U32, tableEntry p 0#8 = 0#32 ∧ tableEntry p 1#8 = p ∧
    tableEntry p 2#8 = (p <<< 1) ^^^ (if p.getLsbD 31 then p else 0#32)

/-- R74 law 4: linearity. -/
def Obligations.TableEntryIsLinear : Prop :=
  ∀ (p : U32) (i j : Byte), tableEntry p (i ^^^ j) = tableEntry p i ^^^ tableEntry p j

/-- R74 law 5: the polynomials 0, 1 and 0x80000000; the number of one bits of `i` is odd when the exclusive-or of its
bits is true. -/
def Obligations.DegeneratePolynomials : Prop :=
  ∀ i : Byte, tableEntry 0#32 i = 0#32 ∧ tableEntry 1#32 i = i.setWidth 32 ∧
    tableEntry 0x80000000#32 i =
      if ((List.range 8).map fun k => i.getLsbD k).foldl xor false then 0x80000000#32 else 0#32

/-! ## The calculation functions (41_calculate.md) -/

/-- R92, R94: `CalcBytes` has a value exactly on whole groups. -/
def Obligations.CalcBytesIsDefinedOnWholeGroups : Prop :=
  ∀ (T : Table) (buf : List Byte), (∃ c, calcBytes T buf = some c) ↔ buf.length % 4 = 0

/-- R97: the word form of a group step; with R34, the group as a little-endian word. -/
def Obligations.WordFormOfGroupStep : Prop :=
  ∀ (T : Table) (c : U32) (g : Group), groupStep T c g = groupStepWord T c (Group.word g)

/-- R98: for the table of `p`, an update is eight bit-serial steps, and `CalcBytes` is the plain shift-register CRC over
the group-reversed stream. -/
def Obligations.CalcBytesIsTheBitSerialCrc : Prop :=
  ∀ (p : U32) (T : Table), (∀ i : Byte, Table.get T i = tableEntry p i) →
    (∀ (c : U32) (b : Byte), upd T c b = updSerial p c b) ∧
    ∀ buf : List Byte, buf.length % 4 = 0 →
      ∃ stream, visitOrder buf = some stream ∧ calcBytes T buf = some (serialCrc p 0xFFFFFFFF#32 stream)

/-- R102 laws 1 to 3 and the first part of law 4: for every table with `T[0] = 0`. -/
def Obligations.LawsOfTablesWithZeroFirstEntry : Prop :=
  ∀ T : Table, Table.get T 0#8 = 0#32 →
    (∀ c : U32, upd T c (c.extractLsb' 24 8) = c <<< 8) ∧
    calcBytes T [0xFF#8, 0xFF#8, 0xFF#8, 0xFF#8] = some 0#32 ∧
    upd T 0#32 0#8 = 0#32 ∧
    calcBytes T [0xFF#8, 0xFF#8, 0xFF#8, 0xFF#8, 0#8, 0#8, 0#8, 0#8] = some 0#32 ∧
    ∀ x : List Byte, calcBytes T (0xFF#8 :: 0xFF#8 :: 0xFF#8 :: 0xFF#8 :: x) = foldGroups T 0#32 x

/-- R102 law 4, second part: for a built table, four leading FF bytes act like complementing the next four. -/
def Obligations.LeadingOnesComplementTheFirstGroup : Prop :=
  ∀ (p : U32) (T : Table), (∀ i : Byte, Table.get T i = tableEntry p i) →
    ∀ (b0 b1 b2 b3 : Byte) (x : List Byte),
      calcBytes T (0xFF#8 :: 0xFF#8 :: 0xFF#8 :: 0xFF#8 :: b0 :: b1 :: b2 :: b3 :: x) =
        calcBytes T (~~~b0 :: ~~~b1 :: ~~~b2 :: ~~~b3 :: x)

/-- R102 law 5: with the all-zero table every non-empty buffer of whole groups gives 0 and the empty one 0xFFFFFFFF. -/
def Obligations.ZeroTableGivesZero : Prop :=
  ∀ T : Table, (∀ i : Byte, Table.get T i = 0#32) →
    calcBytes T [] = some 0xFFFFFFFF#32 ∧
      ∀ buf : List Byte, buf ≠ [] → buf.length % 4 = 0 → calcBytes T buf = some 0#32

/-! ## The commands -/

/-- R73: `BUILD` on a block without a table. It answers OK(0) and makes `TV`, `POLY` and all 256 entries. -/
def Obligations.BuildConstructsTheTable : Prop :=
  ∀ (poly : U32) (s : State), s.tv = false →
    ∃ t, exec (.build poly) s = .next t ∧ t.tv = true ∧ t.poly = poly ∧
      (∀ i : Byte, Table.get t.table i = tableEntry poly i) ∧ State.CommandFrame s t (.ok 0#32)

/-- R123: a `BUILD` that arrives when `TV` = 1 is refused, with either the same or another polynomial. -/
def Obligations.SecondBuildIsLocked : Prop :=
  ∀ (poly : U32) (s : State), s.tv = true →
    ∃ t, exec (.build poly) s = .next t ∧ State.SameTable s t ∧ State.CommandFrame s t (.error .locked 0#32)

/-- R76: `RDTBL` on a block with a table answers the entry and leaves the table. -/
def Obligations.RdtblReturnsTheEntry : Prop :=
  ∀ (idx : Byte) (s : State), s.tv = true →
    ∃ t, exec (.rdtbl idx) s = .next t ∧ State.SameTable s t ∧
      State.CommandFrame s t (.ok (Table.get s.table idx))

/-- R122: before a `BUILD`, `CALC` and `RDTBL` are refused, whatever their operands. -/
def Obligations.NoTableRefusesCalcAndRdtbl : Prop :=
  ∀ (i : Instr) (s : State), s.tv = false → (∀ p, i ≠ .build p) →
    ∃ t, exec i s = .next t ∧ State.SameTable s t ∧ State.CommandFrame s t (.error .noTable 0#32)

/-- R76, R74: after `BUILD p`, `RDTBL 0` returns 0 and `RDTBL 1` returns `p`. -/
def Obligations.BuildThenReadBackPolynomial : Prop :=
  ∀ (p : U32) (s : State), s.tv = false →
    ∃ t u v, exec (.build p) s = .next t ∧ exec (.rdtbl 0#8) t = .next u ∧ exec (.rdtbl 1#8) u = .next v ∧
      v.responses = .ok p :: .ok 0#32 :: .ok 0#32 :: s.responses ∧ State.SameTable t v

/-- R93: `CALC` whose checks pass and whose bytes are all mapped answers `CalcBytes(TABLE, buf)` with
`buf[j] = mem(base + j)`, and leaves it in `CRC`. `base` is any address, aligned or not (R36). -/
def Obligations.CalcReturnsTheChecksum : Prop :=
  ∀ (base len : U32) (s : State) (buf : List Byte), s.tv = true → len.toNat % 4 = 0 →
    base.toNat + len.toNat ≤ 2 ^ 32 → buf.length = len.toNat →
    (∀ (j : Nat) (h : j < buf.length), Memory.read s.mem (base.toNat + j) = some buf[j]) →
    ∃ c t, calcBytes s.table buf = some c ∧ exec (.calculate base len) s = .next t ∧ t.crc = c ∧
      State.SameTable s t ∧ State.CommandFrame s t (.ok c)

/-- R14, R93, R98: in every state that meets the invariant and has a table, `CALC` over a mapped buffer of
whole groups answers the plain bit-serial CRC of the polynomial register over the group-reversed bytes. A result of one
command, under the invariant that `StepKeepsTheInvariant` states. -/
def Obligations.CalcAnswersTheSerialCrcOfPoly : Prop :=
  ∀ (base len : U32) (s : State) (buf : List Byte), State.Inv s → s.tv = true → len.toNat % 4 = 0 →
    base.toNat + len.toNat ≤ 2 ^ 32 → buf.length = len.toNat →
    (∀ (j : Nat) (h : j < buf.length), Memory.read s.mem (base.toNat + j) = some buf[j]) →
    ∃ stream t, visitOrder buf = some stream ∧ exec (.calculate base len) s = .next t ∧
      t.responses = .ok (serialCrc s.poly 0xFFFFFFFF#32 stream) :: s.responses

/-- R95, R93: the empty buffer gives 0xFFFFFFFF with every table, whatever `base` is and whatever is mapped. -/
def Obligations.EmptyBufferGivesAllOnes : Prop :=
  (∀ T : Table, calcBytes T [] = some 0xFFFFFFFF#32) ∧
    ∀ (base : U32) (s : State), s.tv = true →
      ∃ t, exec (.calculate base 0#32) s = .next t ∧ t.crc = 0xFFFFFFFF#32 ∧ State.SameTable s t ∧
        State.CommandFrame s t (.ok 0xFFFFFFFF#32)

/-- R94, R124: a length that is not a multiple of 4 is refused with that length, whatever the address and the memory. -/
def Obligations.CalcRefusesPartialGroups : Prop :=
  ∀ (base len : U32) (s : State), s.tv = true → len.toNat % 4 ≠ 0 →
    ∃ t, exec (.calculate base len) s = .next t ∧ State.SameTable s t ∧
      State.CommandFrame s t (.error .length len)

/-- R125: a buffer that would pass address 0xFFFFFFFF is refused with its `base`, whatever the memory; a buffer that ends
exactly at 2^32 is not, and an empty one never is. -/
def Obligations.CalcRefusesBuffersPastTheTop : Prop :=
  ∀ (base len : U32) (s : State), s.tv = true → len.toNat % 4 = 0 →
    (2 ^ 32 < base.toNat + len.toNat → ∃ t, exec (.calculate base len) s = .next t ∧ State.SameTable s t ∧
      State.CommandFrame s t (.error .range base)) ∧
    (base.toNat + len.toNat ≤ 2 ^ 32 → ∃ t r, exec (.calculate base len) s = .next t ∧
      t.responses = r :: s.responses ∧ ∀ info, r ≠ .error .range info) ∧
    (len = 0#32 → base.toNat + len.toNat ≤ 2 ^ 32)

/-- R126: the lowest group with an unmapped byte is reported by its first address. -/
def Obligations.CalcReportsTheLowestUnmappedGroup : Prop :=
  ∀ (base len : U32) (s : State) (k j : Nat), s.tv = true → len.toNat % 4 = 0 →
    base.toNat + len.toNat ≤ 2 ^ 32 → k < len.toNat / 4 → j < 4 →
    Memory.read s.mem (base.toNat + 4 * k + j) = none →
    (∀ a, base.toNat ≤ a → a < base.toNat + 4 * k → Memory.read s.mem a ≠ none) →
    ∃ t, exec (.calculate base len) s = .next t ∧ State.SameTable s t ∧
      State.CommandFrame s t (.error .bus (BitVec.ofNat 32 (base.toNat + 4 * k)))

/-- R31: `MemRead(addr, 4)` gives the four bytes in address order, and fails exactly when one of them is unmapped. -/
def Obligations.GroupReadFailsOnAnyUnmappedByte : Prop :=
  ∀ (m : Memory) (addr : Nat),
    (∀ g : Group, Memory.readGroup m addr = some g ↔
      Memory.read m addr = some g.b0 ∧ Memory.read m (addr + 1) = some g.b1 ∧
        Memory.read m (addr + 2) = some g.b2 ∧ Memory.read m (addr + 3) = some g.b3) ∧
    (Memory.readGroup m addr = none ↔ ∃ k, k < 4 ∧ Memory.read m (addr + k) = none)

/-- R96, R37: what `CALC` answers depends on the valid table and on what is mapped in `base .. base + len - 1`, and on
nothing else: not on `CRC`, `POLY`, earlier commands or any other byte of memory. -/
def Obligations.CalcDependsOnTableAndBufferOnly : Prop :=
  ∀ (base len : U32) (s s' : State), s.tv = true → s'.tv = true →
    (∀ i : Byte, Table.get s.table i = Table.get s'.table i) →
    (∀ a, base.toNat ≤ a → a < base.toNat + len.toNat → Memory.read s.mem a = Memory.read s'.mem a) →
    ∃ t t' r, exec (.calculate base len) s = .next t ∧ exec (.calculate base len) s' = .next t' ∧
      t.responses = r :: s.responses ∧ t'.responses = r :: s'.responses

/-! ## Steps and ports -/

/-- R53, R57: when the host presents a command word to an idle block and the word decodes to `i`, a step is `exec` of
`i`, the word taken from the port. -/
def Obligations.StepRunsTheDecodedCommand : Prop :=
  ∀ (s : State) (w : CmdWord) (rest : List HostMove) (i : Instr), s.seq = .idle → s.moves = .command w :: rest →
    decode w = .instr i → step s = exec i { s with moves := rest }

/-- The model's own `State.withFetchWord` (log entry 5): the very next step runs the instruction that the decoder reads
from the word, in every state. -/
def Obligations.FetchWordRunsNext : Prop :=
  ∀ (s : State) (w : Nat) (i : Instr), w < 2 ^ 72 → decodeTableWord 72 w = some i →
    step (State.withFetchWord s 72 w) = exec i { s with seq := .idle }

/-- R55, R121: a word that matches no row of the opcode map is answered with E_ILLEGAL(0), whatever `TV` is, and leaves
`TV`, `POLY`, `TABLE` and memory. Of `CRC` R128 says that it is unspecified after an error (log entry 2). -/
def Obligations.IllegalWordIsAnswered : Prop :=
  ∀ (s : State) (w : CmdWord) (rest : List HostMove), s.seq = .idle →
    (s.moves = .command w :: rest ∨ s.moves = .stepwise w :: rest) → CmdWord.wellFormed w = false →
    ∃ t, step s = .next t ∧ State.SameTable s t ∧
      State.CommandFrame { s with moves := rest } t (.error .illegal 0#32)

/-- R127: a command reports one error, the first that applies: decode, table state, length, range, bus. -/
def Obligations.OneErrorInPriorityOrder : Prop :=
  ∀ (s : State) (w : CmdWord) (rest : List HostMove), s.seq = .idle → s.moves = .command w :: rest →
    ∃ t r, step s = .next t ∧ t.responses = r :: s.responses ∧
      (CmdWord.wellFormed w = false → r = .error .illegal 0#32) ∧
      (∀ p, w = encode (.build p) → r = if s.tv then .error .locked 0#32 else .ok 0#32) ∧
      (∀ idx, w = encode (.rdtbl idx) → r = if s.tv then .ok (Table.get s.table idx) else .error .noTable 0#32) ∧
      (∀ base len, w = encode (.calculate base len) →
        if s.tv = false then r = .error .noTable 0#32
        else if len.toNat % 4 ≠ 0 then r = .error .length len
        else if 2 ^ 32 < base.toNat + len.toNat then r = .error .range base
        else
          (∃ c, r = .ok c ∧ ∀ a, base.toNat ≤ a → a < base.toNat + len.toNat → Memory.read s.mem a ≠ none) ∨
          (∃ k j, k < len.toNat / 4 ∧ j < 4 ∧ r = .error .bus (BitVec.ofNat 32 (base.toNat + 4 * k)) ∧
            Memory.read s.mem (base.toNat + 4 * k + j) = none ∧
            ∀ a, base.toNat ≤ a → a < base.toNat + 4 * k → Memory.read s.mem a ≠ none))

/-- R128: errors are precise: after an error response to any word, `TV`, `POLY` and every entry have the values they had
at acceptance, memory is unchanged and the block is idle. -/
def Obligations.ErrorsArePrecise : Prop :=
  ∀ (s t : State) (w : CmdWord) (rest : List HostMove) (e : Err) (info : U32), s.seq = .idle →
    s.moves = .command w :: rest → step s = .next t → t.responses = .error e info :: s.responses →
    State.SameTable s t ∧ t.seq = .idle ∧ ∀ a, Memory.read t.mem a = Memory.read s.mem a

/-- R150, R152: reset acts in any state, also during a command: `TV` = 0 and `SEQ` = `IDLE` afterwards, no response is
produced, and the buffer memory is not the block's to change. -/
def Obligations.ResetActsInAnyState : Prop :=
  ∀ (s : State) (rest : List HostMove), s.moves = .reset :: rest →
    ∃ t, step s = .next t ∧ t.tv = false ∧ t.seq = .idle ∧ t.responses = s.responses ∧ t.moves = rest ∧
      ∀ a, Memory.read t.mem a = Memory.read s.mem a

/-- R150: after reset the only command that can succeed is `BUILD`. -/
def Obligations.WithoutTableOnlyBuildSucceeds : Prop :=
  ∀ (s t : State) (w : CmdWord) (rest : List HostMove) (v : U32), s.tv = false → s.seq = .idle →
    s.moves = .command w :: rest → step s = .next t → t.responses = .ok v :: s.responses →
    ∃ p, w = encode (.build p)

/-- R23, R150: the reset values the spec gives. -/
def Obligations.ResetStateHasNoTable : Prop :=
  State.reset.tv = false ∧ State.reset.seq = .idle

/-- R57: a busy block's port is not ready: without a reset, a step leaves the host's moves and the memory where they are
and delivers one response exactly when the block returns to `IDLE`. That the memory waits is log entry 8, and that every
step of a busy block answers is log entry 10. -/
def Obligations.BusyBlockIsNotReady : Prop :=
  ∀ s : State, s.seq ≠ .idle → (∀ rest, s.moves ≠ .reset :: rest) →
    ∃ t, step s = .next t ∧ t.moves = s.moves ∧ t.mem = s.mem ∧
      ((t.seq ≠ .idle ∧ t.responses = s.responses) ∨ (t.seq = .idle ∧ ∃ r, t.responses = r :: s.responses))

/-- The model's choice (log entry 12) for R158's finished run: an idle block without a move of the host stays as it is. -/
def Obligations.IdleBlockWithoutMoveWaits : Prop :=
  ∀ s : State, s.seq = .idle → s.moves = [] → step s = .next s

/-- The model's host move for R30 and R41 (log entry 5): a change of the buffer memory between commands is seen at its
address and nowhere else, and touches nothing of the block. -/
def Obligations.HostChangesMemoryAtOneAddress : Prop :=
  ∀ (s : State) (addr : U32) (v : Option Byte) (rest : List HostMove), Memory.wf s.mem = true → s.seq = .idle →
    s.moves = .memory addr v :: rest →
    ∃ t, step s = .next t ∧ Memory.read t.mem addr.toNat = v ∧
      (∀ a, a ≠ addr.toNat → Memory.read t.mem a = Memory.read s.mem a) ∧ Memory.wf t.mem = true ∧
      State.SameTable s t ∧ t.crc = s.crc ∧ t.seq = .idle ∧ t.responses = s.responses ∧ t.moves = rest

/-! ## Whole-machine rules -/

/-- The model's choice, not a rule: no step stops the machine. It rests on log entry 10 (the two assumptions that U8 of
93_implementation_defined.md asks a claim like this to name: the block always returns to `IDLE`, and the memory answers
every read), on log entry 12 (an idle block without a move of the host takes a step that changes nothing), and on log
entry 16 (no fault exists and no refusal is raised, since every error of the spec is a response). -/
def Obligations.EveryStepAnswersANextState : Prop :=
  ∀ s : State, ∃ t, step s = .next t

/-- R14, R20: the reset state meets the invariant. -/
def Obligations.ResetMeetsTheInvariant : Prop :=
  State.Inv State.reset

/-- R14: in every state from which the invariant holds, a step keeps it: with `TV` = 1 every entry is the one of `POLY`;
the memory keeps its canonical form; the sequencer's value is legal and its partial work right. -/
def Obligations.StepKeepsTheInvariant : Prop :=
  ∀ s t : State, State.Inv s → step s = .next t → State.Inv t

/-- R14: in every reachable state with `TV` = 1, every entry is the one of `POLY`. The reachable states are those that
runs from reset reach, whatever moves the host makes and whatever the buffer memory holds. It follows from
`ResetMeetsTheInvariant` and the step lemma `StepKeepsTheInvariant` by induction on the run. -/
def Obligations.ReachableTablesBelongToTheirPolynomial : Prop :=
  ∀ (n : Nat) (moves : List HostMove) (mem : Memory) (t : State), Memory.wf mem = true →
    Host.Core.run Sys2Proof.core n { State.reset with moves := moves, mem := mem } = .next t → t.tv = true →
    ∀ i : Byte, Table.get t.table i = tableEntry t.poly i

/-- R12: once `TV` = 1 no step but a reset writes `TV`, `POLY` or the table. -/
def Obligations.ValidTableIsImmutable : Prop :=
  ∀ s t : State, State.Inv s → s.tv = true → (∀ rest, s.moves ≠ .reset :: rest) → step s = .next t →
    State.SameTable s t

/-- R16: `TV` is set by a successful `BUILD` and by nothing else, and cleared by reset and by nothing else. -/
def Obligations.OnlyBuildSetsAndOnlyResetClearsTv : Prop :=
  ∀ s t : State, step s = .next t →
    (s.tv = false → t.tv = true →
      (s.seq = .idle ∧ ∃ p rest, s.moves = .command (encode (.build p)) :: rest) ∨
        ∃ i, s.seq = .building i ∧ 256 ≤ i) ∧
    (s.tv = true → t.tv = false → ∃ rest, s.moves = .reset :: rest)

/-- R32: the block never writes memory: only a host's change of memory does. -/
def Obligations.BlockNeverWritesMemory : Prop :=
  ∀ s t : State, (∀ a v rest, s.moves ≠ .memory a v :: rest) → step s = .next t →
    ∀ a, Memory.read t.mem a = Memory.read s.mem a

/-- R151, R23: no response depends on an unspecified element. Two states that differ only in `POLY`, `CRC`, an invalid
table and the model's counter of free values step to such states again, with the same responses. So the placeholders of
`State.reset` (log entry 1) and every free value (log entries 2 to 4) stay unobservable along a run. -/
def Obligations.UnspecifiedElementsAreNeverObserved : Prop :=
  ∀ s t s' t' : State, State.SameButUnspecified s t → step s = .next s' → step t = .next t' →
    State.SameButUnspecified s' t'

/-! ## The small-step reading (R75, R99, R157) -/

/-- R75: the run of `BUILD` has exactly 257 steps after acceptance: after `n` of them the sequencer is at `BUILDING(n)`,
the first `n` entries are written and the others are not, `TV` stays 0 and no response comes; after the last, the end
state equals the atomic reading. The equality is of whole states, so it takes in `CRC`, unspecified after `BUILD`: that
both readings draw the same free value is log entry 3, and that the small-step reading draws it with its last step is
log entry 9. -/
def Obligations.SmallStepBuildRefinesBuild : Prop :=
  ∀ (p : U32) (s : State), s.seq = .idle → s.tv = false →
    (∀ n, n ≤ 256 → (microSteps n (accept (.build p) s)).seq = .building n ∧
      (microSteps n (accept (.build p) s)).tv = false ∧ (microSteps n (accept (.build p) s)).poly = p ∧
      (∀ j : Byte, Table.get (microSteps n (accept (.build p) s)).table j =
        if j.toNat < n then tableEntry p j else Table.get s.table j) ∧
      (microSteps n (accept (.build p) s)).responses = s.responses) ∧
    exec (.build p) s = .next (microSteps 257 (accept (.build p) s))

/-- R99: the run of `CALC` ends within `len/4 + 1` steps after acceptance, and its end state, response included, equals
the atomic reading, including which group an `E_BUS` names. R99's premise, the stability duty of R40, is met because no
change of memory lies between the steps (log entry 8); that every read is answered is log entry 10. After an error the
equality takes in `CRC`, unspecified there: that both readings draw the same free value is log entry 3, and where the
small-step reading draws it is log entry 9. -/
def Obligations.SmallStepCalcRefinesCalc : Prop :=
  ∀ (base len : U32) (s : State), s.seq = .idle →
    exec (.calculate base len) s = .next (microSteps (len.toNat / 4 + 1) (accept (.calculate base len) s))

/-- R57, R75, R99: a command word presented in the small-step reading is accepted when the block is idle. -/
def Obligations.StepwiseCommandIsAccepted : Prop :=
  ∀ (s : State) (w : CmdWord) (rest : List HostMove) (i : Instr), s.seq = .idle → s.moves = .stepwise w :: rest →
    decode w = .instr i → step s = .next (accept i { s with moves := rest })

/-- R20, R75, R99, R157: running a command stepwise, acceptance included, reaches after at most `internalSteps` steps
more the state that the atomic reading reaches in one step, unless the host resets the block meanwhile. It rests on
choices of the model: both readings draw the same free `CRC` (log entry 3), a change of memory waits for `IDLE`, so the
buffer is stable (log entry 8), the move `stepwise`, the count after acceptance and a reset acting in the very next step
are the model's (log entry 9), and the block returns to `IDLE` and the memory answers every read (log entry 10). -/
def Obligations.StepwiseRunEqualsTheAtomicStep : Prop :=
  ∀ (s : State) (w : CmdWord) (rest : List HostMove) (i : Instr), s.seq = .idle → s.moves = .stepwise w :: rest →
    decode w = .instr i → (∀ more, rest ≠ .reset :: more) →
    ∃ n, n ≤ internalSteps i + 1 ∧
      Host.Core.run Sys2Proof.core n s = step { s with moves := .command w :: rest }

/-- R157, R57: every accepted command produces its one response after finitely many internal steps. It rests on the two
assumptions that U8 of 93_implementation_defined.md asks this claim to name (log entry 10): the block always returns to
`IDLE`, and the memory answers every read. The counts are of steps after acceptance, as in R75 and R99: 257 for `BUILD`,
`len/4 + 1` for `CALC`. For `RDTBL` R157 says 1; that this one step is the acceptance itself, so that 0 come after it, is
the model's reading (log entry 9). -/
def Obligations.EveryCommandRespondsInBoundedSteps : Prop :=
  ∀ (i : Instr) (s : State), s.seq = .idle →
    ∃ n r, n ≤ internalSteps i ∧ (microSteps n (accept i s)).seq = .idle ∧
      (microSteps n (accept i s)).responses = r :: s.responses
end

