-- ==== Sys2Proof/Laws/Decode.lean ====
section
/-!
SUPPORT. The fields of a command word: reading a field of a written word, and writing a word from its fields.
-/

namespace Sys2Proof

/-- Field `OP` of a word written from its fields (30_encoding.md R50). -/
@[simp] theorem CmdWord.op_cmdWord (op : Byte) (a b : U32) : CmdWord.op (cmdWord op a b) = op := by
  rw [CmdWord.op, cmdWord, BitVec.extractLsb'_append_eq_of_le (by decide)]
  exact BitVec.extractLsb'_append_eq_left

/-- Field `A` of a word written from its fields. -/
@[simp] theorem CmdWord.a_cmdWord (op : Byte) (a b : U32) : CmdWord.a (cmdWord op a b) = a := by
  rw [CmdWord.a, cmdWord, BitVec.extractLsb'_append_eq_of_le (by decide)]
  exact BitVec.extractLsb'_append_eq_right

/-- Field `B` of a word written from its fields. -/
@[simp] theorem CmdWord.b_cmdWord (op : Byte) (a b : U32) : CmdWord.b (cmdWord op a b) = b :=
  BitVec.extractLsb'_append_eq_right

/-- A word is its three fields. -/
theorem cmdWord_fields (w : CmdWord) : cmdWord (CmdWord.op w) (CmdWord.a w) (CmdWord.b w) = w := by
  apply BitVec.eq_of_getLsbD_eq
  intro i hi
  simp only [cmdWord, CmdWord.op, CmdWord.a, CmdWord.b, BitVec.getLsbD_append, BitVec.getLsbD_extractLsb']
  by_cases h1 : i < 32
  · simp [h1]
  · by_cases h2 : i - 32 < 32
    · simp [h1, h2, show 32 + (i - 32) = i by omega]
    · simp [h1, h2, show 64 + (i - 32 - 32) = i by omega, show i - 32 - 32 < 8 by omega]

/-- Masking acts field by field. -/
theorem cmdWord_and (op mop : Byte) (a b ma mb : U32) :
    cmdWord op a b &&& cmdWord mop ma mb = cmdWord (op &&& mop) (a &&& ma) (b &&& mb) := by
  rw [cmdWord, cmdWord, BitVec.and_append, BitVec.and_append, cmdWord]

/-- Words with a different field differ. -/
theorem cmdWord_inj {op op' : Byte} {a a' b b' : U32} (h : cmdWord op a b = cmdWord op' a' b') :
    op = op' ∧ a = a' ∧ b = b' :=
  ⟨by simpa using congrArg CmdWord.op h, by simpa using congrArg CmdWord.a h, by simpa using congrArg CmdWord.b h⟩

end Sys2Proof
end

