-- ==== Sys2Proof/Laws/State.lean ====
section
/-!
SUPPORT. One lemma per field per update of the state, so that no later proof unfolds a record update.
-/

namespace Sys2Proof.Machine

variable (s : State)

/-! ### `State.loseCrc` -/

@[simp] theorem State.loseCrc_table : (State.loseCrc s).table = s.table := rfl
@[simp] theorem State.loseCrc_poly : (State.loseCrc s).poly = s.poly := rfl
@[simp] theorem State.loseCrc_tv : (State.loseCrc s).tv = s.tv := rfl
@[simp] theorem State.loseCrc_crc : (State.loseCrc s).crc = Config.freeCrc s.draws := rfl
@[simp] theorem State.loseCrc_seq : (State.loseCrc s).seq = s.seq := rfl
@[simp] theorem State.loseCrc_mem : (State.loseCrc s).mem = s.mem := rfl
@[simp] theorem State.loseCrc_moves : (State.loseCrc s).moves = s.moves := rfl
@[simp] theorem State.loseCrc_responses : (State.loseCrc s).responses = s.responses := rfl
@[simp] theorem State.loseCrc_draws : (State.loseCrc s).draws = s.draws + 1 := rfl

/-! ### `State.deliver` -/

@[simp] theorem State.deliver_table (r : Response) : (State.deliver r s).table = s.table := rfl
@[simp] theorem State.deliver_poly (r : Response) : (State.deliver r s).poly = s.poly := rfl
@[simp] theorem State.deliver_tv (r : Response) : (State.deliver r s).tv = s.tv := rfl
@[simp] theorem State.deliver_crc (r : Response) : (State.deliver r s).crc = s.crc := rfl
@[simp] theorem State.deliver_seq (r : Response) : (State.deliver r s).seq = .idle := rfl
@[simp] theorem State.deliver_mem (r : Response) : (State.deliver r s).mem = s.mem := rfl
@[simp] theorem State.deliver_moves (r : Response) : (State.deliver r s).moves = s.moves := rfl
@[simp] theorem State.deliver_responses (r : Response) : (State.deliver r s).responses = r :: s.responses := rfl
@[simp] theorem State.deliver_draws (r : Response) : (State.deliver r s).draws = s.draws := rfl

/-! ### `State.respondOk` -/

@[simp] theorem State.respondOk_table (v : U32) : (State.respondOk v s).table = s.table := rfl
@[simp] theorem State.respondOk_poly (v : U32) : (State.respondOk v s).poly = s.poly := rfl
@[simp] theorem State.respondOk_tv (v : U32) : (State.respondOk v s).tv = s.tv := rfl
@[simp] theorem State.respondOk_crc (v : U32) : (State.respondOk v s).crc = s.crc := rfl
@[simp] theorem State.respondOk_seq (v : U32) : (State.respondOk v s).seq = .idle := rfl
@[simp] theorem State.respondOk_mem (v : U32) : (State.respondOk v s).mem = s.mem := rfl
@[simp] theorem State.respondOk_moves (v : U32) : (State.respondOk v s).moves = s.moves := rfl
@[simp] theorem State.respondOk_responses (v : U32) : (State.respondOk v s).responses = .ok v :: s.responses := rfl
@[simp] theorem State.respondOk_draws (v : U32) : (State.respondOk v s).draws = s.draws := rfl

/-! ### `State.raise` -/

@[simp] theorem State.raise_table (e : Err) (info : U32) : (State.raise e info s).table = s.table := rfl
@[simp] theorem State.raise_poly (e : Err) (info : U32) : (State.raise e info s).poly = s.poly := rfl
@[simp] theorem State.raise_tv (e : Err) (info : U32) : (State.raise e info s).tv = s.tv := rfl
@[simp] theorem State.raise_crc (e : Err) (info : U32) : (State.raise e info s).crc = Config.freeCrc s.draws := rfl
@[simp] theorem State.raise_seq (e : Err) (info : U32) : (State.raise e info s).seq = .idle := rfl
@[simp] theorem State.raise_mem (e : Err) (info : U32) : (State.raise e info s).mem = s.mem := rfl
@[simp] theorem State.raise_moves (e : Err) (info : U32) : (State.raise e info s).moves = s.moves := rfl
@[simp] theorem State.raise_responses (e : Err) (info : U32) : (State.raise e info s).responses = .error e info :: s.responses := rfl
@[simp] theorem State.raise_draws (e : Err) (info : U32) : (State.raise e info s).draws = s.draws + 1 := rfl

/-! ### `State.setTableValid` -/

@[simp] theorem State.setTableValid_table : (State.setTableValid s).table = s.table := rfl
@[simp] theorem State.setTableValid_poly : (State.setTableValid s).poly = s.poly := rfl
@[simp] theorem State.setTableValid_tv : (State.setTableValid s).tv = true := rfl
@[simp] theorem State.setTableValid_crc : (State.setTableValid s).crc = s.crc := rfl
@[simp] theorem State.setTableValid_seq : (State.setTableValid s).seq = s.seq := rfl
@[simp] theorem State.setTableValid_mem : (State.setTableValid s).mem = s.mem := rfl
@[simp] theorem State.setTableValid_moves : (State.setTableValid s).moves = s.moves := rfl
@[simp] theorem State.setTableValid_responses : (State.setTableValid s).responses = s.responses := rfl
@[simp] theorem State.setTableValid_draws : (State.setTableValid s).draws = s.draws := rfl

/-! ### `State.writeTable` -/

@[simp] theorem State.writeTable_table (p : U32) : (State.writeTable p s).table = Table.ofFn (tableEntry p) := rfl
@[simp] theorem State.writeTable_poly (p : U32) : (State.writeTable p s).poly = p := rfl
@[simp] theorem State.writeTable_tv (p : U32) : (State.writeTable p s).tv = s.tv := rfl
@[simp] theorem State.writeTable_crc (p : U32) : (State.writeTable p s).crc = s.crc := rfl
@[simp] theorem State.writeTable_seq (p : U32) : (State.writeTable p s).seq = s.seq := rfl
@[simp] theorem State.writeTable_mem (p : U32) : (State.writeTable p s).mem = s.mem := rfl
@[simp] theorem State.writeTable_moves (p : U32) : (State.writeTable p s).moves = s.moves := rfl
@[simp] theorem State.writeTable_responses (p : U32) : (State.writeTable p s).responses = s.responses := rfl
@[simp] theorem State.writeTable_draws (p : U32) : (State.writeTable p s).draws = s.draws := rfl

/-! ### `State.setCrc` -/

@[simp] theorem State.setCrc_table (c : U32) : (State.setCrc c s).table = s.table := rfl
@[simp] theorem State.setCrc_poly (c : U32) : (State.setCrc c s).poly = s.poly := rfl
@[simp] theorem State.setCrc_tv (c : U32) : (State.setCrc c s).tv = s.tv := rfl
@[simp] theorem State.setCrc_crc (c : U32) : (State.setCrc c s).crc = c := rfl
@[simp] theorem State.setCrc_seq (c : U32) : (State.setCrc c s).seq = s.seq := rfl
@[simp] theorem State.setCrc_mem (c : U32) : (State.setCrc c s).mem = s.mem := rfl
@[simp] theorem State.setCrc_moves (c : U32) : (State.setCrc c s).moves = s.moves := rfl
@[simp] theorem State.setCrc_responses (c : U32) : (State.setCrc c s).responses = s.responses := rfl
@[simp] theorem State.setCrc_draws (c : U32) : (State.setCrc c s).draws = s.draws := rfl

/-! ### `State.takeMove` -/

@[simp] theorem State.takeMove_table (ms : List HostMove) : (State.takeMove ms s).table = s.table := rfl
@[simp] theorem State.takeMove_poly (ms : List HostMove) : (State.takeMove ms s).poly = s.poly := rfl
@[simp] theorem State.takeMove_tv (ms : List HostMove) : (State.takeMove ms s).tv = s.tv := rfl
@[simp] theorem State.takeMove_crc (ms : List HostMove) : (State.takeMove ms s).crc = s.crc := rfl
@[simp] theorem State.takeMove_seq (ms : List HostMove) : (State.takeMove ms s).seq = s.seq := rfl
@[simp] theorem State.takeMove_mem (ms : List HostMove) : (State.takeMove ms s).mem = s.mem := rfl
@[simp] theorem State.takeMove_moves (ms : List HostMove) : (State.takeMove ms s).moves = ms := rfl
@[simp] theorem State.takeMove_responses (ms : List HostMove) : (State.takeMove ms s).responses = s.responses := rfl
@[simp] theorem State.takeMove_draws (ms : List HostMove) : (State.takeMove ms s).draws = s.draws := rfl

/-! ### `State.changeMemory` -/

@[simp] theorem State.changeMemory_table (a : U32) (v : Option Byte) : (State.changeMemory a v s).table = s.table := rfl
@[simp] theorem State.changeMemory_poly (a : U32) (v : Option Byte) : (State.changeMemory a v s).poly = s.poly := rfl
@[simp] theorem State.changeMemory_tv (a : U32) (v : Option Byte) : (State.changeMemory a v s).tv = s.tv := rfl
@[simp] theorem State.changeMemory_crc (a : U32) (v : Option Byte) : (State.changeMemory a v s).crc = s.crc := rfl
@[simp] theorem State.changeMemory_seq (a : U32) (v : Option Byte) : (State.changeMemory a v s).seq = s.seq := rfl
@[simp] theorem State.changeMemory_mem (a : U32) (v : Option Byte) : (State.changeMemory a v s).mem = Memory.update s.mem a.toNat v := rfl
@[simp] theorem State.changeMemory_moves (a : U32) (v : Option Byte) : (State.changeMemory a v s).moves = s.moves := rfl
@[simp] theorem State.changeMemory_responses (a : U32) (v : Option Byte) : (State.changeMemory a v s).responses = s.responses := rfl
@[simp] theorem State.changeMemory_draws (a : U32) (v : Option Byte) : (State.changeMemory a v s).draws = s.draws := rfl

/-! ### `State.applyReset` -/

@[simp] theorem State.applyReset_table : (State.applyReset s).table = Table.ofFn (Config.freeEntry s.draws) := rfl
@[simp] theorem State.applyReset_poly : (State.applyReset s).poly = Config.freePoly s.draws := rfl
@[simp] theorem State.applyReset_tv : (State.applyReset s).tv = false := rfl
@[simp] theorem State.applyReset_crc : (State.applyReset s).crc = Config.freeCrc s.draws := rfl
@[simp] theorem State.applyReset_seq : (State.applyReset s).seq = .idle := rfl
@[simp] theorem State.applyReset_mem : (State.applyReset s).mem = s.mem := rfl
@[simp] theorem State.applyReset_moves : (State.applyReset s).moves = s.moves := rfl
@[simp] theorem State.applyReset_responses : (State.applyReset s).responses = s.responses := rfl
@[simp] theorem State.applyReset_draws : (State.applyReset s).draws = s.draws + 1 := rfl

/-! ### `State.withFetchWord` -/

@[simp] theorem State.withFetchWord_table (n w : Nat) : (State.withFetchWord s n w).table = s.table := rfl
@[simp] theorem State.withFetchWord_poly (n w : Nat) : (State.withFetchWord s n w).poly = s.poly := rfl
@[simp] theorem State.withFetchWord_tv (n w : Nat) : (State.withFetchWord s n w).tv = s.tv := rfl
@[simp] theorem State.withFetchWord_crc (n w : Nat) : (State.withFetchWord s n w).crc = s.crc := rfl
@[simp] theorem State.withFetchWord_seq (n w : Nat) : (State.withFetchWord s n w).seq = .idle := rfl
@[simp] theorem State.withFetchWord_mem (n w : Nat) : (State.withFetchWord s n w).mem = s.mem := rfl
@[simp] theorem State.withFetchWord_moves (n w : Nat) : (State.withFetchWord s n w).moves = .command (tableWord n w) :: s.moves := rfl
@[simp] theorem State.withFetchWord_responses (n w : Nat) : (State.withFetchWord s n w).responses = s.responses := rfl
@[simp] theorem State.withFetchWord_draws (n w : Nat) : (State.withFetchWord s n w).draws = s.draws := rfl

/-- `TV` is read as it is. -/
@[simp] theorem State.tableValid_eq : State.tableValid s = s.tv := rfl

/-! ### `State.reset` -/

@[simp] theorem State.reset_tv : State.reset.tv = false := rfl
@[simp] theorem State.reset_seq : State.reset.seq = .idle := rfl
@[simp] theorem State.reset_mem : State.reset.mem = [] := rfl
@[simp] theorem State.reset_moves : State.reset.moves = [] := rfl
@[simp] theorem State.reset_responses : State.reset.responses = [] := rfl

end Sys2Proof.Machine
end

