-- ==== Sys2Proof/Laws/Memory.lean ====
section
/-!
SUPPORT. The laws of the table and of the buffer memory: read after write, every other place unchanged, the canonical
form kept, and what a group read and a buffer consist of.
-/

namespace Sys2Proof.Machine

/-! ## The table -/

@[simp] theorem Table.get_ofFn (f : Byte → U32) (i : Byte) : Table.get (Table.ofFn f) i = f i := by
  unfold Table.get Table.ofFn
  exact Vector.getElem_ofFn _

@[simp] theorem Table.get_set_same (t : Table) (i : Byte) (v : U32) : Table.get (Table.set t i v) i = v := by
  simp [Table.get, Table.set]

theorem Table.get_set_other (t : Table) {i j : Byte} (v : U32) (h : i ≠ j) :
    Table.get (Table.set t i v) j = Table.get t j := by
  have : i.toNat ≠ j.toNat := fun e => h (BitVec.eq_of_toNat_eq e)
  simp [Table.get, Table.set, this]

/-- Two tables with equal entries are equal. -/
theorem Table.ext_get {t u : Table} (h : ∀ i : Byte, Table.get t i = Table.get u i) : t = u := by
  apply Vector.ext
  intro i hi
  have := h (BitVec.ofFin ⟨i, hi⟩)
  simpa [Table.get] using this

theorem Table.eq_ofFn {t : Table} {f : Byte → U32} (h : ∀ i : Byte, Table.get t i = f i) : t = Table.ofFn f :=
  Table.ext_get fun i => by simp [h i]

/-! ## The buffer memory -/

@[simp] theorem Memory.read_nil (a : Nat) : Memory.read [] a = none := rfl

/-- In a canonical memory nothing answers below its first address. -/
theorem Memory.read_below {m : Memory} {lo a : Nat} (h : Memory.wfFrom lo m = true) (ha : a < lo) :
    Memory.read m a = none := by
  induction m generalizing lo with
  | nil => rfl
  | cons c m ih =>
    obtain ⟨x, v⟩ := c
    simp only [Memory.wfFrom, Bool.and_eq_true, decide_eq_true_eq] at h
    have hx : a ≠ x := by omega
    simp only [Memory.read, hx, if_false]
    exact ih h.2 (by omega)

theorem Memory.wfFrom_mono {m : Memory} {lo lo' : Nat} (h : Memory.wfFrom lo m = true) (hl : lo' ≤ lo) :
    Memory.wfFrom lo' m = true := by
  cases m with
  | nil => rfl
  | cons c m =>
    obtain ⟨x, v⟩ := c
    simp only [Memory.wfFrom, Bool.and_eq_true, decide_eq_true_eq] at h ⊢
    exact ⟨⟨by omega, h.1.2⟩, h.2⟩

theorem Memory.wfFrom_cons {m : Memory} {lo a : Nat} {v : Option Byte} (h : Memory.wfFrom (a + 1) m = true)
    (hl : lo ≤ a) (ha : a < 2 ^ 32) : Memory.wfFrom lo (Memory.cons a v m) = true := by
  cases v with
  | none => exact Memory.wfFrom_mono h (by omega)
  | some b =>
    simp only [Memory.cons, Memory.wfFrom, Bool.and_eq_true, decide_eq_true_eq]
    exact ⟨⟨hl, ha⟩, h⟩

/-- A change of memory keeps the canonical form. -/
theorem Memory.wfFrom_update {m : Memory} {lo a : Nat} (v : Option Byte) (h : Memory.wfFrom lo m = true)
    (hl : lo ≤ a) (ha : a < 2 ^ 32) : Memory.wfFrom lo (Memory.update m a v) = true := by
  induction m generalizing lo with
  | nil => exact Memory.wfFrom_cons rfl hl ha
  | cons c m ih =>
    obtain ⟨x, w⟩ := c
    have h' := h
    simp only [Memory.wfFrom, Bool.and_eq_true, decide_eq_true_eq] at h
    simp only [Memory.update]
    split
    · refine Memory.wfFrom_cons ?_ hl ha
      simp only [Memory.wfFrom, Bool.and_eq_true, decide_eq_true_eq]
      exact ⟨⟨by omega, h.1.2⟩, h.2⟩
    · split
      · subst_vars; exact Memory.wfFrom_cons h.2 hl ha
      · simp only [Memory.wfFrom, Bool.and_eq_true, decide_eq_true_eq]
        exact ⟨h.1, ih h.2 (by omega)⟩

/-- A host's change of memory keeps the canonical form. -/
theorem Memory.wf_update {m : Memory} (a : U32) (v : Option Byte) (h : Memory.wf m = true) :
    Memory.wf (Memory.update m a.toNat v) = true :=
  Memory.wfFrom_update v h (Nat.zero_le _) a.isLt

theorem Memory.read_cons_same {m : Memory} {a : Nat} (v : Option Byte) (h : Memory.wfFrom (a + 1) m = true) :
    Memory.read (Memory.cons a v m) a = v := by
  cases v with
  | none => exact Memory.read_below h (by omega)
  | some b => simp [Memory.cons, Memory.read]

theorem Memory.read_cons_other {m : Memory} {a a' : Nat} (v : Option Byte) (h : a' ≠ a) :
    Memory.read (Memory.cons a v m) a' = Memory.read m a' := by
  cases v <;> simp [Memory.cons, Memory.read, h]

theorem Memory.read_updateFrom_same {m : Memory} {lo a : Nat} (v : Option Byte) (h : Memory.wfFrom lo m = true) :
    Memory.read (Memory.update m a v) a = v := by
  induction m generalizing lo with
  | nil => exact Memory.read_cons_same v rfl
  | cons c m ih =>
    obtain ⟨x, w⟩ := c
    simp only [Memory.wfFrom, Bool.and_eq_true, decide_eq_true_eq] at h
    simp only [Memory.update]
    split
    · refine Memory.read_cons_same v ?_
      simp only [Memory.wfFrom, Bool.and_eq_true, decide_eq_true_eq]
      exact ⟨⟨by omega, h.1.2⟩, h.2⟩
    · split
      · subst_vars; exact Memory.read_cons_same v h.2
      · rename_i h1 h2
        simp only [Memory.read, h2, if_false]
        exact ih h.2

theorem Memory.read_update_other {m : Memory} {a a' : Nat} (v : Option Byte) (h : a' ≠ a) :
    Memory.read (Memory.update m a v) a' = Memory.read m a' := by
  induction m with
  | nil => exact Memory.read_cons_other v h
  | cons c m ih =>
    obtain ⟨x, w⟩ := c
    simp only [Memory.update]
    split
    · exact Memory.read_cons_other v h
    · split
      · subst_vars; rw [Memory.read_cons_other v h]; simp [Memory.read, h]
      · simp only [Memory.read, ih]

/-! ## Group reads and buffers -/

/-- A group read answers exactly when the four bytes answer (20_memory.md R31). -/
theorem Memory.readGroup_eq_some {m : Memory} {a : Nat} {g : Group} :
    Memory.readGroup m a = some g ↔
      Memory.read m a = some g.b0 ∧ Memory.read m (a + 1) = some g.b1 ∧ Memory.read m (a + 2) = some g.b2 ∧
        Memory.read m (a + 3) = some g.b3 := by
  obtain ⟨b0, b1, b2, b3⟩ := g
  unfold Memory.readGroup
  cases Memory.read m a <;> cases Memory.read m (a + 1) <;> cases Memory.read m (a + 2) <;>
    cases Memory.read m (a + 3) <;> simp

/-- A group read depends on its four bytes only. -/
theorem Memory.readGroup_congr {m m' : Memory} {a : Nat}
    (h : ∀ k, k < 4 → Memory.read m (a + k) = Memory.read m' (a + k)) :
    Memory.readGroup m a = Memory.readGroup m' a := by
  have h0 : Memory.read m a = Memory.read m' a := h 0 (by omega)
  unfold Memory.readGroup
  rw [h0, h 1 (by omega), h 2 (by omega), h 3 (by omega)]

@[simp] theorem Memory.buffer_zero (m : Memory) (a : Nat) : Memory.buffer m a 0 = some [] := rfl

/-- A buffer of one byte more (20_memory.md R30). -/
theorem Memory.buffer_succ {m : Memory} {a n : Nat} {l : List Byte} :
    Memory.buffer m a (n + 1) = some l ↔
      ∃ b bs, Memory.read m a = some b ∧ Memory.buffer m (a + 1) n = some bs ∧ l = b :: bs := by
  simp only [Memory.buffer]
  cases Memory.read m a <;> cases Memory.buffer m (a + 1) n <;> simp [eq_comm]

/-- A buffer of a group more starts with the bytes of that group. -/
theorem Memory.buffer_group {m : Memory} {a n : Nat} {l : List Byte} :
    Memory.buffer m a (n + 4) = some l ↔
      ∃ g rest, Memory.readGroup m a = some g ∧ Memory.buffer m (a + 4) n = some rest ∧
        l = g.b0 :: g.b1 :: g.b2 :: g.b3 :: rest := by
  constructor
  · intro h
    obtain ⟨b0, l1, h0, t1, rfl⟩ := Memory.buffer_succ.1 h
    obtain ⟨b1, l2, h1, t2, rfl⟩ := Memory.buffer_succ.1 t1
    obtain ⟨b2, l3, h2, t3, rfl⟩ := Memory.buffer_succ.1 t2
    obtain ⟨b3, l4, h3, t4, rfl⟩ := Memory.buffer_succ.1 t3
    exact ⟨⟨b0, b1, b2, b3⟩, l4, Memory.readGroup_eq_some.2 ⟨h0, h1, h2, h3⟩, t4, rfl⟩
  · rintro ⟨g, rest, hg, hr, rfl⟩
    obtain ⟨h0, h1, h2, h3⟩ := Memory.readGroup_eq_some.1 hg
    exact Memory.buffer_succ.2 ⟨_, _, h0, Memory.buffer_succ.2 ⟨_, _, h1, Memory.buffer_succ.2 ⟨_, _, h2,
      Memory.buffer_succ.2 ⟨_, _, h3, hr, rfl⟩, rfl⟩, rfl⟩, rfl⟩

end Sys2Proof.Machine
end

