-- ==== Sys2Proof/Laws/PerInstr.lean ====
section
/-!
SUPPORT. Per instruction: the encoded word selects the instruction's own row of the opcode map and no other
(30_encoding.md R53).
-/

namespace Sys2Proof.Laws.EncodesToItsRow

/-- The word of `i` selects the row of `i`, and every row it selects is that row. -/
def Statement (i : Instr) : Prop :=
  OpcodeRow.selects (Instr.row i) (encode i) = true ∧
    ∀ r ∈ opcodeMap, OpcodeRow.selects r (encode i) = true → r = Instr.row i

/-- The masks and patterns of the three rows, field by field (R50, R53). -/
theorem row_build (p : U32) : Instr.row (.build p) =
    ⟨"BUILD", cmdWord 0xFF#8 0#32 0xFFFFFFFF#32, cmdWord 0x01#8 0#32 0#32⟩ := rfl
theorem row_calc (b l : U32) : Instr.row (.calculate b l) =
    ⟨"CALC", cmdWord 0xFF#8 0#32 0#32, cmdWord 0x02#8 0#32 0#32⟩ := rfl
theorem row_rdtbl (x : Byte) : Instr.row (.rdtbl x) =
    ⟨"RDTBL", cmdWord 0xFF#8 0xFFFFFF00#32 0xFFFFFFFF#32, cmdWord 0x03#8 0#32 0#32⟩ := rfl

theorem and_byte (x : Byte) : x &&& 0xFF#8 = x := BitVec.and_allOnes
theorem and_u32 (x : U32) : x &&& 0xFFFFFFFF#32 = x := BitVec.and_allOnes

/-- A word selects `BUILD`'s row by its opcode and its `B` field. -/
theorem selects_build (p : U32) (op : Byte) (a b : U32) :
    OpcodeRow.selects (Instr.row (.build p)) (cmdWord op a b) = true ↔ op = 0x01#8 ∧ b = 0#32 := by
  simp only [OpcodeRow.selects, row_build, cmdWord_and, beq_iff_eq, and_byte, and_u32]
  refine ⟨fun h => ?_, ?_⟩
  · obtain ⟨h1, -, h3⟩ := cmdWord_inj h
    exact ⟨h1, h3⟩
  · rintro ⟨rfl, rfl⟩; simp

/-- A word selects `CALC`'s row by its opcode. -/
theorem selects_calc (x y : U32) (op : Byte) (a b : U32) :
    OpcodeRow.selects (Instr.row (.calculate x y)) (cmdWord op a b) = true ↔ op = 0x02#8 := by
  simp only [OpcodeRow.selects, row_calc, cmdWord_and, beq_iff_eq, and_byte]
  refine ⟨fun h => ?_, ?_⟩
  · exact (cmdWord_inj h).1
  · rintro rfl; simp

/-- A word selects `RDTBL`'s row by its opcode, the high bits of `A` and its `B` field. -/
theorem selects_rdtbl (x : Byte) (op : Byte) (a b : U32) :
    OpcodeRow.selects (Instr.row (.rdtbl x)) (cmdWord op a b) = true ↔
      op = 0x03#8 ∧ a &&& 0xFFFFFF00#32 = 0#32 ∧ b = 0#32 := by
  simp only [OpcodeRow.selects, row_rdtbl, cmdWord_and, beq_iff_eq, and_byte, and_u32]
  refine ⟨fun h => ?_, ?_⟩
  · obtain ⟨h1, h2, h3⟩ := cmdWord_inj h
    exact ⟨h1, h2, h3⟩
  · rintro ⟨rfl, h, rfl⟩; simp [h]

/-- Which rows there are. -/
theorem mem_opcodeMap {r : OpcodeRow} (h : r ∈ opcodeMap) :
    r = Instr.row (.build 0) ∨ r = Instr.row (.calculate 0 0) ∨ r = Instr.row (.rdtbl 0) := by
  simpa [opcodeMap] using h

theorem build (poly : U32) : Statement (.build poly) := by
  refine ⟨(selects_build ..).2 ⟨rfl, rfl⟩, fun r hr h => ?_⟩
  obtain rfl | rfl | rfl := mem_opcodeMap hr
  · rfl
  · exact absurd ((selects_calc ..).1 h) (by decide)
  · exact absurd ((selects_rdtbl ..).1 h).1 (by decide)

theorem calculate (base len : U32) : Statement (.calculate base len) := by
  refine ⟨(selects_calc ..).2 rfl, fun r hr h => ?_⟩
  obtain rfl | rfl | rfl := mem_opcodeMap hr
  · exact absurd ((selects_build ..).1 h).1 (by decide)
  · rfl
  · exact absurd ((selects_rdtbl ..).1 h).1 (by decide)

theorem rdtbl (idx : Byte) : Statement (.rdtbl idx) := by
  refine ⟨(selects_rdtbl ..).2 ⟨rfl, ?_, rfl⟩, fun r hr h => ?_⟩
  · revert idx; decide
  obtain rfl | rfl | rfl := mem_opcodeMap hr
  · exact absurd ((selects_build ..).1 h).1 (by decide)
  · exact absurd ((selects_calc ..).1 h) (by decide)
  · rfl

end Sys2Proof.Laws.EncodesToItsRow
end

