-- ==== Sys2Proof/Laws/Step.lean ====
section
/-!
SUPPORT. Said once: how each command ends, what the checks and the group loop of `CALC` answer, what an internal step
does, and what one step can do. Later proofs
cite these instead of unfolding the meanings.
-/

namespace Sys2Proof.Machine

/-! ## The commands -/

/-- `BUILD` ends in one of two ways (R73, R123). -/
theorem execBuild_cases {p : U32} {s : State} :
    (s.tv = true ∧ execBuild p s = .next (State.raise .locked 0#32 s)) ∨
      (s.tv = false ∧
        execBuild p s = .next (State.respondOk 0#32 (State.loseCrc (State.setTableValid (State.writeTable p s))))) := by
  cases h : s.tv <;> simp [execBuild, h]

/-- `RDTBL` ends in one of two ways (R76, R122). -/
theorem execRdtbl_cases {i : Byte} {s : State} :
    (s.tv = false ∧ execRdtbl i s = .next (State.raise .noTable 0#32 s)) ∨
      (s.tv = true ∧ execRdtbl i s = .next (State.respondOk (Table.get s.table i) (State.loseCrc s))) := by
  cases h : s.tv <;> simp [execRdtbl, h]

/-- What the checks of `CALC` answer (R93, R127). -/
theorem calcCheck_cases {base len : U32} {s : State} :
    (s.tv = false ∧ calcCheck base len s = some (.noTable, 0#32)) ∨
      (s.tv = true ∧ lengthOk len = false ∧ calcCheck base len s = some (.length, len)) ∨
      (s.tv = true ∧ lengthOk len = true ∧ rangeOk base len = false ∧ calcCheck base len s = some (.range, base)) ∨
      (s.tv = true ∧ lengthOk len = true ∧ rangeOk base len = true ∧ calcCheck base len s = none) := by
  cases h : s.tv <;> cases h2 : lengthOk len <;> cases h3 : rangeOk base len <;> simp [calcCheck, h, h2, h3]

/-- The length check is R94's condition. -/
theorem lengthOk_iff {len : U32} : lengthOk len = true ↔ len.toNat % 4 = 0 := beq_iff_eq

/-- The range check is R125's condition. -/
theorem rangeOk_iff {base len : U32} : rangeOk base len = true ↔ base.toNat + len.toNat ≤ 2 ^ 32 := decide_eq_true_iff

/-- The checks of `CALC` pass exactly when all three hold (R93). -/
theorem calcCheck_eq_none {base len : U32} {s : State} :
    calcCheck base len s = none ↔ s.tv = true ∧ lengthOk len = true ∧ rangeOk base len = true := by
  cases h : s.tv <;> cases h2 : lengthOk len <;> cases h3 : rangeOk base len <;> simp [calcCheck, h, h2, h3]

/-- `CALC` ends in one of three ways (R93). -/
theorem execCalc_cases {base len : U32} {s : State} :
    (∃ e info, calcCheck base len s = some (e, info) ∧ execCalc base len s = .next (State.raise e info s)) ∨
      (calcCheck base len s = none ∧
        ((∃ c, calcLoop s.table s.mem (groupCount len) (bufferAddr base 0) initCrc = .sum c ∧
            execCalc base len s = .next (State.respondOk c (State.setCrc c s))) ∨
          (∃ a, calcLoop s.table s.mem (groupCount len) (bufferAddr base 0) initCrc = .bus a ∧
            execCalc base len s = .next (State.raise .bus (busInfo a) s)))) := by
  unfold execCalc
  cases h : calcCheck base len s with
  | some ei => exact .inl ⟨ei.1, ei.2, rfl, rfl⟩
  | none =>
    cases h2 : calcLoop s.table s.mem (groupCount len) (bufferAddr base 0) initCrc with
    | sum c => exact .inr ⟨rfl, .inl ⟨c, rfl, rfl⟩⟩
    | bus a => exact .inr ⟨rfl, .inr ⟨a, rfl, rfl⟩⟩

/-! ## The group loop -/

@[simp] theorem calcLoop_zero (T : Table) (m : Memory) (a : Nat) (c : U32) : calcLoop T m 0 a c = .sum c := rfl

theorem calcLoop_succ_some {T : Table} {m : Memory} {k a : Nat} {c : U32} {g : Group}
    (h : Memory.readGroup m a = some g) :
    calcLoop T m (k + 1) a c = calcLoop T m k (a + 4) (groupStep T c g) := by
  simp [calcLoop, h]

theorem calcLoop_succ_none {T : Table} {m : Memory} {k a : Nat} {c : U32} (h : Memory.readGroup m a = none) :
    calcLoop T m (k + 1) a c = .bus a := by
  simp [calcLoop, h]

/-- The loop with one group more at its end. -/
theorem calcLoop_snoc {T : Table} {m : Memory} {n a : Nat} {c d : U32} {g : Group}
    (h : calcLoop T m n a c = .sum d) (hg : Memory.readGroup m (a + 4 * n) = some g) :
    calcLoop T m (n + 1) a c = .sum (groupStep T d g) := by
  induction n generalizing a c with
  | zero =>
    cases h
    exact calcLoop_succ_some hg
  | succ n ih =>
    cases h0 : Memory.readGroup m a with
    | none => rw [calcLoop_succ_none h0] at h; cases h
    | some g0 =>
      rw [calcLoop_succ_some h0] at h ⊢
      exact ih h (by rw [← hg]; congr 1; omega)

/-- The loop depends on the bytes of its groups only (20_memory.md R37). -/
theorem calcLoop_congr {T : Table} {m m' : Memory} {n a : Nat} {c : U32}
    (h : ∀ x, a ≤ x → x < a + 4 * n → Memory.read m x = Memory.read m' x) :
    calcLoop T m n a c = calcLoop T m' n a c := by
  induction n generalizing a c with
  | zero => rfl
  | succ n ih =>
    have hg : Memory.readGroup m a = Memory.readGroup m' a :=
      Memory.readGroup_congr fun k hk => h _ (by omega) (by omega)
    simp only [calcLoop, hg]
    split
    · rfl
    · exact ih fun x hx hy => h x (by omega) (by omega)

/-- Every command answers a next state that is idle, with one response more, and leaves the memory and the host's moves
(R32, R57). -/
theorem exec_answers (i : Instr) (s : State) :
    ∃ t r, exec i s = .next t ∧ t.seq = .idle ∧ t.responses = r :: s.responses ∧ t.mem = s.mem ∧
      t.moves = s.moves := by
  cases i with
  | build p => obtain ⟨_, h⟩ | ⟨_, h⟩ := @execBuild_cases p s <;> exact ⟨_, _, h, rfl, rfl, rfl, rfl⟩
  | calculate b l =>
    obtain ⟨_, _, _, h⟩ | ⟨_, ⟨_, _, h⟩ | ⟨_, _, h⟩⟩ := @execCalc_cases b l s <;>
      exact ⟨_, _, h, rfl, rfl, rfl, rfl⟩
  | rdtbl x => obtain ⟨_, h⟩ | ⟨_, h⟩ := @execRdtbl_cases x s <;> exact ⟨_, _, h, rfl, rfl, rfl, rfl⟩

/-! ## Acceptance and internal steps (R75, R99) -/

/-- Acceptance responds at once, as the atomic reading does, or makes the block busy (R75, R99). -/
theorem accept_cases (i : Instr) (s : State) :
    exec i s = .next (accept i s) ∨
      (∃ p, i = .build p ∧ s.tv = false ∧ accept i s = { s with poly := p, seq := .building 0 }) ∨
      (∃ b l, i = .calculate b l ∧ calcCheck b l s = none ∧
        accept i s = { s with crc := initCrc, seq := .calculating b l 0 }) := by
  cases i with
  | build p =>
    obtain ⟨h, g⟩ | ⟨h, _⟩ := @execBuild_cases p s
    · exact .inl (by rw [exec, g]; simp [accept, acceptBuild, h])
    · exact .inr (.inl ⟨p, rfl, h, by simp [accept, acceptBuild, h]⟩)
  | calculate b l =>
    obtain ⟨e, i, h, g⟩ | ⟨h, _⟩ := @execCalc_cases b l s
    · exact .inl (by rw [exec, g]; simp [accept, acceptCalc, h])
    · exact .inr (.inr ⟨b, l, rfl, h, by simp [accept, acceptCalc, h]⟩)
  | rdtbl x =>
    obtain ⟨h, g⟩ | ⟨h, g⟩ := @execRdtbl_cases x s
    · exact .inl (by rw [exec, g]; simp [accept, acceptRdtbl, h])
    · exact .inl (by rw [exec, g]; simp [accept, acceptRdtbl, h])

theorem microStep_idle {s : State} (h : s.seq = .idle) : microStep s = s := by simp [microStep, h]

theorem microStep_building {s : State} {i : Nat} (h : s.seq = .building i) (hi : i < 256) :
    microStep s =
      { s with
        table := Table.set s.table (BitVec.ofNat 8 i) (tableEntry s.poly (BitVec.ofNat 8 i))
        seq := .building (i + 1) } := by
  simp [microStep, buildingStep, h, hi]

theorem microStep_built {s : State} {i : Nat} (h : s.seq = .building i) (hi : 256 ≤ i) :
    microStep s = State.respondOk 0#32 (State.loseCrc (State.setTableValid s)) := by
  simp [microStep, buildingStep, h, show ¬ i < 256 by omega]

theorem microStep_group {s : State} {b l : U32} {pos : Nat} {g : Group} (h : s.seq = .calculating b l pos)
    (hp : pos < l.toNat) (hg : Memory.readGroup s.mem (bufferAddr b pos) = some g) :
    microStep s = { s with crc := groupStep s.table s.crc g, seq := .calculating b l (pos + 4) } := by
  simp [microStep, calculatingStep, h, hp, hg]

theorem microStep_bus {s : State} {b l : U32} {pos : Nat} (h : s.seq = .calculating b l pos)
    (hp : pos < l.toNat) (hg : Memory.readGroup s.mem (bufferAddr b pos) = none) :
    microStep s = State.raise .bus (busInfo (bufferAddr b pos)) s := by
  simp [microStep, calculatingStep, h, hp, hg]

theorem microStep_sum {s : State} {b l : U32} {pos : Nat} (h : s.seq = .calculating b l pos)
    (hp : l.toNat ≤ pos) : microStep s = State.respondOk s.crc s := by
  simp [microStep, calculatingStep, h, show ¬ pos < l.toNat by omega]

/-! ## One step -/

/-- The reset input acts in any state. -/
theorem step_reset {s : State} {rest : List HostMove} (h : s.moves = .reset :: rest) :
    step s = .next (State.applyReset (State.takeMove rest s)) := by
  simp [step, fetch, h]

/-- An idle block without a move of the host does nothing. -/
theorem step_quiet {s : State} (h : s.moves = []) (hq : s.seq = .idle) : step s = .next s := by
  simp [step, fetch, h, hq]

/-- A change of memory between commands. -/
theorem step_memory {s : State} {a : U32} {v : Option Byte} {rest : List HostMove}
    (h : s.moves = .memory a v :: rest) (hq : s.seq = .idle) :
    step s = .next (State.changeMemory a v (State.takeMove rest s)) := by
  simp [step, fetch, h, hq]

/-- A command word that decodes to an instruction is run. -/
theorem step_command {s : State} {w : CmdWord} {i : Instr} {rest : List HostMove}
    (h : s.moves = .command w :: rest) (hq : s.seq = .idle) (hd : decode w = .instr i) :
    step s = exec i (State.takeMove rest s) := by
  simp [step, fetch, acceptWord, h, hq, hd]

/-- An illegal word is answered with `E_ILLEGAL(0)`. -/
theorem step_illegal {s : State} {w : CmdWord} {why : Illegal} {rest : List HostMove}
    (h : s.moves = .command w :: rest) (hq : s.seq = .idle) (hd : decode w = .illegal why) :
    step s = .next (State.raise .illegal 0#32 (State.takeMove rest s)) := by
  simp [step, fetch, acceptWord, h, hq, hd]

/-- A command word in the small-step reading is accepted. -/
theorem step_stepwise {s : State} {w : CmdWord} {i : Instr} {rest : List HostMove}
    (h : s.moves = .stepwise w :: rest) (hq : s.seq = .idle) (hd : decode w = .instr i) :
    step s = .next (accept i (State.takeMove rest s)) := by
  simp [step, fetch, acceptStepwise, h, hq, hd]

/-- An illegal word in the small-step reading is answered at once. -/
theorem step_stepwise_illegal {s : State} {w : CmdWord} {why : Illegal} {rest : List HostMove}
    (h : s.moves = .stepwise w :: rest) (hq : s.seq = .idle) (hd : decode w = .illegal why) :
    step s = .next (State.raise .illegal 0#32 (State.takeMove rest s)) := by
  simp [step, fetch, acceptStepwise, h, hq, hd]

/-- A busy block without a reset takes an internal step. -/
theorem step_busy {s : State} (hr : ∀ rest, s.moves ≠ .reset :: rest) (hq : s.seq ≠ .idle) :
    step s = .next (microStep s) := by
  unfold step fetch
  cases hm : s.moves with
  | nil => cases h : s.seq <;> simp_all
  | cons v rest => cases v <;> cases h : s.seq <;> simp_all

/-- What one step can do. -/
inductive StepCase (s : State) : Prop where
  | reset (rest : List HostMove) (hm : s.moves = .reset :: rest)
      (hs : step s = .next (State.applyReset (State.takeMove rest s)))
  | busy (hr : ∀ rest, s.moves ≠ .reset :: rest) (hq : s.seq ≠ .idle) (hs : step s = .next (microStep s))
  | quiet (hm : s.moves = []) (hq : s.seq = .idle) (hs : step s = .next s)
  | memory (a : U32) (v : Option Byte) (rest : List HostMove) (hm : s.moves = .memory a v :: rest)
      (hq : s.seq = .idle) (hs : step s = .next (State.changeMemory a v (State.takeMove rest s)))
  | command (w : CmdWord) (i : Instr) (rest : List HostMove) (hm : s.moves = .command w :: rest)
      (hq : s.seq = .idle) (hd : decode w = .instr i) (hs : step s = exec i (State.takeMove rest s))
  | stepwise (w : CmdWord) (i : Instr) (rest : List HostMove) (hm : s.moves = .stepwise w :: rest)
      (hq : s.seq = .idle) (hd : decode w = .instr i) (hs : step s = .next (accept i (State.takeMove rest s)))
  | illegal (w : CmdWord) (why : Illegal) (rest : List HostMove)
      (hm : s.moves = .command w :: rest ∨ s.moves = .stepwise w :: rest) (hq : s.seq = .idle) (hd : decode w = .illegal why)
      (hs : step s = .next (State.raise .illegal 0#32 (State.takeMove rest s)))

/-- Every step is one of these. -/
theorem step_cases (s : State) : StepCase s := by
  by_cases hr : ∃ rest, s.moves = .reset :: rest
  · obtain ⟨rest, h⟩ := hr
    exact .reset rest h (step_reset h)
  have hr' : ∀ rest, s.moves ≠ .reset :: rest := fun rest h => hr ⟨rest, h⟩
  by_cases hq : s.seq = .idle
  · cases hm : s.moves with
    | nil => exact .quiet hm hq (step_quiet hm hq)
    | cons v rest =>
      cases v with
      | reset => exact absurd hm (hr' rest)
      | memory a b => exact .memory a b rest hm hq (step_memory hm hq)
      | command w =>
        cases hd : decode w with
        | instr i => exact .command w i rest hm hq hd (step_command hm hq hd)
        | illegal why => exact .illegal w why rest (.inl hm) hq hd (step_illegal hm hq hd)
      | stepwise w =>
        cases hd : decode w with
        | instr i => exact .stepwise w i rest hm hq hd (step_stepwise hm hq hd)
        | illegal why => exact .illegal w why rest (.inr hm) hq hd (step_stepwise_illegal hm hq hd)
  · exact .busy hr' hq (step_busy hr' hq)

end Sys2Proof.Machine
end

