-- ==== Sys2Proof/Laws/Run.lean ====
section
/-!
SUPPORT. Runs of the machine (70_reset_and_hazards.md R158): one step, then the rest; and the induction over a run,
packaged once.
-/

namespace Sys2Proof.Machine

theorem run_zero (s : State) : Host.Core.run Sys2Proof.core 0 s = .next s := rfl

theorem run_succ {n : Nat} {s u : State} (h : step s = .next u) :
    Host.Core.run Sys2Proof.core (n + 1) s = Host.Core.run Sys2Proof.core n u := by
  have h' : Sys2Proof.core.step s = .next u := h
  simp only [Host.Core.run, h']

/-- A property that every step keeps holds at the end of a run that starts in it. -/
theorem run_keeps {P : State → Prop} (hstep : ∀ s, P s → ∃ u, step s = .next u ∧ P u) {n : Nat} {s t : State}
    (hs : P s) (h : Host.Core.run Sys2Proof.core n s = .next t) : P t := by
  induction n generalizing s with
  | zero =>
    rw [run_zero] at h
    cases h
    exact hs
  | succ n ih =>
    obtain ⟨u, hu, hp⟩ := hstep s hs
    rw [run_succ hu] at h
    exact ih hp h

end Sys2Proof.Machine
end

