-- ==== Sys2Proof/Tests/Slice0.lean ====
section
/-!
SUPPORT. The model's own tests. Expected values are the spec's: 30_encoding.md R59 and 95_test_vectors.md, named at each
test. After them, for every obligation with hypotheses, a state and operands that meet all of them.
-/

namespace Sys2Proof.Tests

open Sys2Proof.Machine

/-! ## Helpers -/

/-- An idle block whose table is that of `p`, over the bytes given. -/
def built (p : U32) (mem : Memory) (moves : List HostMove) : State :=
  { State.reset with table := Table.ofFn (tableEntry p), poly := p, tv := true, mem := mem, moves := moves }

/-- A block without a table and with one move of the host to come. -/
def fresh (m : HostMove) : State := { State.reset with moves := [m] }

/-- The bytes of S3 at 0x1000. -/
def keyBytes : Memory :=
  [(0x1000, 0xEF#8), (0x1001, 0xBE#8), (0x1002, 0xAD#8), (0x1003, 0xDE#8),
   (0x1004, 0x00#8), (0x1005, 0x01#8), (0x1006, 0x02#8), (0x1007, 0x03#8)]

/-- The newest response of an outcome, as text (R51). -/
def answer (o : Host.Outcome State Fault Refusal) : List Char :=
  match o with
  | .next s => match s.responses with
    | r :: _ => rspText (Response.word r)
    | [] => []
  | .fault _ => []
  | .refused _ => []

/-- An entry of the table of an outcome. -/
def entryOf (o : Host.Outcome State Fault Refusal) (i : Byte) : Option U32 :=
  match o with
  | .next s => if s.tv then some (Table.get s.table i) else none
  | .fault _ => none
  | .refused _ => none

/-! ## Decoding: words written out from R50 to R53 -/

/-- `OP` = 01, `A` = 04C11DB7, `B` = 0 (R59). -/
theorem test_decode_build : decode 0x0104C11DB700000000#72 = .instr (.build 0x04C11DB7#32) := by decide

/-- `OP` = 02, `A` = 20000200, `B` = 8 (R59). -/
theorem test_decode_calc : decode 0x022000020000000008#72 = .instr (.calculate 0x20000200#32 8#32) := by decide

/-- `OP` = 03, `A` = 000000FF, `B` = 0 (R59). -/
theorem test_decode_rdtbl : decode 0x03000000FF00000000#72 = .instr (.rdtbl 0xFF#8) := by decide

/-- The table numbers the same words (`decodeTableWord`). -/
theorem test_decode_table_word : decodeTableWord 72 0x022000020000000008 = some (.calculate 0x20000200#32 8#32) := by
  decide

/-- The encoder writes R59's words. -/
theorem test_encode : encode (.build 0x04C11DB7#32) = 0x0104C11DB700000000#72 ∧
    encode (.calculate 0x20000200#32 8#32) = 0x022000020000000008#72 ∧
    encode (.rdtbl 255#8) = 0x03000000FF00000000#72 := by decide

/-! ## Well-formedness: each check refuses an ill-formed word -/

/-- `BUILD` with `B` = 1 (R59, B7). -/
theorem test_wf_build_reserved : CmdWord.wellFormed 0x0104C11DB700000001#72 = false := by decide

/-- `RDTBL` with `A` = 0x100 (R59, B8). -/
theorem test_wf_rdtbl_index : CmdWord.wellFormed 0x030000010000000000#72 = false := by decide

/-- `RDTBL` with `B` = 1 (R52, R54). -/
theorem test_wf_rdtbl_reserved : CmdWord.wellFormed 0x030000000000000001#72 = false := by decide

/-- Opcodes outside the map (R59, X19). -/
theorem test_wf_opcode : CmdWord.wellFormed 0x000000000000000000#72 = false ∧
    CmdWord.wellFormed 0xA20000000000000000#72 = false ∧ CmdWord.wellFormed 0xFF0000000000000000#72 = false := by
  decide

/-- A well-formed word of each row (R59). -/
theorem test_wf_accepts : CmdWord.wellFormed 0x0104C11DB700000000#72 = true ∧
    CmdWord.wellFormed 0x020000000000000000#72 = true ∧ CmdWord.wellFormed 0x03000000FF00000000#72 = true ∧
    Instr.wellFormed (.rdtbl 255#8) = true := by decide

/-! ## Commands, one step each -/

/-- B3: `TABLE[0x21]` of 0x04C11DB7. -/
theorem test_build_entry :
    entryOf (step (fresh (.command 0x0104C11DB700000000#72))) 0x21#8 = some 0x9CE2AB57#32 := by decide +kernel

/-- B5: a second `BUILD` is refused. -/
theorem test_build_locked :
    answer (step (built 0x04C11DB7#32 [] [.command 0x011EDC6F4100000000#72])) =
      ['0', '3', '0', '0', '0', '0', '0', '0', '0', '0'] := by decide +kernel

/-- P1, V17, R100: the handshake key. -/
theorem test_calc_key :
    answer (step (built 0x04C11DB7#32 keyBytes [.command 0x020000100000000008#72])) =
      ['0', '0', '1', '1', '2', '5', '6', 'A', '9', '6'] := by decide +kernel

/-- After X9: the second group runs into unmapped bytes; the info is the group's first address. -/
theorem test_calc_bus :
    answer (step (built 0x04C11DB7#32 keyBytes [.command 0x020000100200000008#72])) =
      ['0', '6', '0', '0', '0', '0', '1', '0', '0', '6'] := by decide +kernel

/-- B3: `RDTBL 255`. -/
theorem test_rdtbl_last :
    answer (step (built 0x04C11DB7#32 [] [.command 0x03000000FF00000000#72])) =
      ['0', '0', 'B', '1', 'F', '7', '4', '0', 'B', '4'] := by decide +kernel

/-- B4: `RDTBL 1` before any `BUILD`. -/
theorem test_rdtbl_no_table :
    answer (step (fresh (.command 0x030000000100000000#72))) =
      ['0', '2', '0', '0', '0', '0', '0', '0', '0', '0'] := by decide +kernel

/-- X20: an illegal word before any `BUILD` is `E_ILLEGAL`, not `E_NOTABLE`. -/
theorem test_illegal_first :
    answer (step (fresh (.command 0x040000100000000008#72))) =
      ['0', '1', '0', '0', '0', '0', '0', '0', '0', '0'] := by decide +kernel

/-- The next step runs the word that `withFetchWord` presents (X6 from a block with a table: `CALC 0x5000, 0`). -/
theorem test_fetch_word :
    answer (step (State.withFetchWord (built 1#32 [] []) 72 0x020000500000000000)) =
      ['0', '0', 'F', 'F', 'F', 'F', 'F', 'F', 'F', 'F'] := by decide +kernel

/-- R58's text form, with a comment. -/
theorem test_assemble_calc :
    assembleLine ['C', 'A', 'L', 'C', ' ', ' ', '0', 'x', '2', '0', '0', '0', '0', '2', '0', '0', ',', ' ', '8', ' ', ';', 'b'] =
      some [0x022000020000000008#72] := by decide

/-! ## Witnesses: the hypotheses of the obligations can be met -/

/-- DecodeOfEncodeIsTheInstruction, EncodeOfDecodeIsTheWord, and the right sides of OperandsAreTheFieldsVerbatim at the
ends of the operands' ranges. -/
theorem test_witness_encoding : Instr.wellFormed (.calculate 0xFFFFFFFF#32 0xFFFFFFFC#32) = true ∧
    decode 0x02FFFFFFFFFFFFFFFC#72 = .instr (.calculate 0xFFFFFFFF#32 0xFFFFFFFC#32) ∧
    decode 0x01FFFFFFFF00000000#72 = .instr (.build 0xFFFFFFFF#32) ∧
    decode 0x030000000000000000#72 = .instr (.rdtbl 0#8) := by decide

/-- OpcodeRowsAreDisjoint. -/
theorem test_witness_rows : Instr.row (.rdtbl 0#8) ∈ opcodeMap ∧
    OpcodeRow.selects (Instr.row (.rdtbl 0#8)) 0x03000000FF00000000#72 = true := by decide

/-- ReservedBitsAndOtherOpcodesAreIllegal: each clause, with one reserved bit set. -/
theorem test_witness_reserved :
    ((0x010000000080000000#72 : CmdWord).extractLsb' 64 8 = 0x01#8 ∧
      (0x010000000080000000#72 : CmdWord).extractLsb' 0 32 ≠ 0#32) ∧
    ((0x030000010000000000#72 : CmdWord).extractLsb' 64 8 = 0x03#8 ∧
      (0x030000010000000000#72 : CmdWord).extractLsb' 40 24 ≠ 0#24) ∧
    ((0x030000000000000001#72 : CmdWord).extractLsb' 64 8 = 0x03#8 ∧
      (0x030000000000000001#72 : CmdWord).extractLsb' 0 32 ≠ 0#32) ∧
    ((0x040000000000000000#72 : CmdWord).extractLsb' 64 8 ≠ 0x01#8 ∧
      (0x040000000000000000#72 : CmdWord).extractLsb' 64 8 ≠ 0x02#8 ∧
      (0x040000000000000000#72 : CmdWord).extractLsb' 64 8 ≠ 0x03#8) := by decide

/-- ResponseWordsAreDistinct. -/
theorem test_witness_response : Response.word (.error .bus 0x100A#32) = 0x060000100A#40 := by decide

/-- CalcBytesIsTheBitSerialCrc, LeadingOnesComplementTheFirstGroup: a built table. -/
theorem test_witness_built_table : ∀ i : Byte, Table.get (built 0x04C11DB7#32 [] []).table i = tableEntry 0x04C11DB7#32 i :=
  fun i => Table.get_ofFn _ i

/-- LawsOfTablesWithZeroFirstEntry. -/
theorem test_witness_zero_entry : Table.get (built 0x04C11DB7#32 [] []).table 0#8 = 0#32 := by decide +kernel

/-- ZeroTableGivesZero, and a non-empty buffer of whole groups for it. -/
theorem test_witness_zero_table :
    (∀ i : Byte, Table.get State.reset.table i = 0#32) ∧ ([1#8, 2#8, 3#8, 4#8] : List Byte) ≠ [] ∧
      ([1#8, 2#8, 3#8, 4#8] : List Byte).length % 4 = 0 := by decide +kernel

/-- BuildConstructsTheTable, NoTableRefusesCalcAndRdtbl, BuildThenReadBackPolynomial. -/
theorem test_witness_no_table : State.reset.tv = false ∧ ∀ p : U32, Instr.rdtbl 7#8 ≠ .build p :=
  ⟨rfl, fun _ h => Instr.noConfusion h⟩

/-- SecondBuildIsLocked, RdtblReturnsTheEntry, and the second clause of EmptyBufferGivesAllOnes. -/
theorem test_witness_table : (built 1#32 [] []).tv = true := rfl

/-- CalcReturnsTheChecksum: a buffer that ends exactly at the top of the address space. -/
theorem test_witness_calc_ok :
    (built 1#32 [(0xFFFFFFFC, 1#8), (0xFFFFFFFD, 2#8), (0xFFFFFFFE, 3#8), (0xFFFFFFFF, 4#8)] []).tv = true ∧
      (4#32).toNat % 4 = 0 ∧ (0xFFFFFFFC#32).toNat + (4#32).toNat ≤ 2 ^ 32 ∧
      ([1#8, 2#8, 3#8, 4#8] : List Byte).length = (4#32).toNat ∧
      ∀ (j : Nat) (h : j < ([1#8, 2#8, 3#8, 4#8] : List Byte).length),
        Memory.read [(0xFFFFFFFC, 1#8), (0xFFFFFFFD, 2#8), (0xFFFFFFFE, 3#8), (0xFFFFFFFF, 4#8)]
          ((0xFFFFFFFC#32).toNat + j) = some ([1#8, 2#8, 3#8, 4#8] : List Byte)[j] := by decide

/-- The invariant, on a block with a table and an unaligned buffer. -/
theorem test_witness_inv : State.Inv (built 0x04C11DB7#32 keyBytes []) :=
  ⟨by decide, fun _ i => Table.get_ofFn _ i, trivial⟩

/-- CalcAnswersTheSerialCrcOfPoly: the same block (`test_witness_inv`), four bytes from an unaligned base. -/
theorem test_witness_calc_unaligned :
    (built 0x04C11DB7#32 keyBytes []).tv = true ∧ (4#32).toNat % 4 = 0 ∧
      (0x1001#32).toNat + (4#32).toNat ≤ 2 ^ 32 ∧
      ([0xBE#8, 0xAD#8, 0xDE#8, 0x00#8] : List Byte).length = (4#32).toNat ∧
      ∀ (j : Nat) (h : j < ([0xBE#8, 0xAD#8, 0xDE#8, 0x00#8] : List Byte).length),
        Memory.read keyBytes ((0x1001#32).toNat + j) = some ([0xBE#8, 0xAD#8, 0xDE#8, 0x00#8] : List Byte)[j] := by
  decide

/-- CalcRefusesPartialGroups at 1 and at the largest length. -/
theorem test_witness_partial : (1#32).toNat % 4 ≠ 0 ∧ (0xFFFFFFFF#32).toNat % 4 ≠ 0 := by decide

/-- CalcRefusesBuffersPastTheTop: each clause at its boundary (X16, X17). -/
theorem test_witness_range :
    (0xFFFFFFFC#32).toNat % 4 = 0 ∧ 2 ^ 32 < (0x8#32).toNat + (0xFFFFFFFC#32).toNat ∧
      2 ^ 32 < (0x5#32).toNat + (0xFFFFFFFC#32).toNat ∧ (0x4#32).toNat + (0xFFFFFFFC#32).toNat ≤ 2 ^ 32 := by decide

/-- CalcReportsTheLowestUnmappedGroup: after X9, the second group of `CALC 0x1002, 8`, whose third byte is unmapped. -/
theorem test_witness_bus :
    (8#32).toNat % 4 = 0 ∧ (0x1002#32).toNat + (8#32).toNat ≤ 2 ^ 32 ∧ 1 < (8#32).toNat / 4 ∧ 2 < 4 ∧
      Memory.read (built 1#32 keyBytes []).mem ((0x1002#32).toNat + 4 * 1 + 2) = none ∧
      ∀ a, (0x1002#32).toNat ≤ a → a < (0x1002#32).toNat + 4 * 1 → Memory.read (built 1#32 keyBytes []).mem a ≠ none := by
  refine ⟨by decide, by decide, by decide, by decide, by decide, fun a h1 h2 => ?_⟩
  have h : a = 0x1002 ∨ a = 0x1003 ∨ a = 0x1004 ∨ a = 0x1005 := by simp at h1 h2; omega
  obtain rfl | rfl | rfl | rfl := h <;> decide

/-- CalcDependsOnTableAndBufferOnly: two states that differ in `CRC` and in a byte outside the buffer. -/
theorem test_witness_depends :
    (∀ i : Byte, Table.get (built 1#32 [(0, 1#8)] []).table i =
        Table.get (State.setCrc 5#32 (built 1#32 [(0, 1#8), (9, 9#8)] [])).table i) ∧
      ∀ a, (0#32).toNat ≤ a → a < (0#32).toNat + (4#32).toNat →
        Memory.read (built 1#32 [(0, 1#8)] []).mem a =
          Memory.read (State.setCrc 5#32 (built 1#32 [(0, 1#8), (9, 9#8)] [])).mem a := by
  refine ⟨fun _ => rfl, fun a _ h => ?_⟩
  have h' : a = 0 ∨ a = 1 ∨ a = 2 ∨ a = 3 := by simp at h; omega
  obtain rfl | rfl | rfl | rfl := h' <;> decide

/-- StepRunsTheDecodedCommand, FetchWordRunsNext, OneErrorInPriorityOrder: a command word of each kind at an idle
block. -/
theorem test_witness_port :
    (fresh (.command 0x03000000FF00000000#72)).seq = .idle ∧
      (fresh (.command 0x03000000FF00000000#72)).moves = .command 0x03000000FF00000000#72 :: [] ∧
      decode 0x03000000FF00000000#72 = .instr (.rdtbl 255#8) ∧
      decodeTableWord 72 0x03000000FF00000000 = some (.rdtbl 255#8) ∧
      encode (.build 0#32) = 0x010000000000000000#72 ∧ encode (.rdtbl 255#8) = 0x03000000FF00000000#72 ∧
      encode (.calculate 0x1000#32 6#32) = 0x020000100000000006#72 := by decide +kernel

/-- IllegalWordIsAnswered. -/
theorem test_witness_illegal :
    (fresh (.command 0x000000000000000000#72)).seq = .idle ∧
      (fresh (.command 0x000000000000000000#72)).moves = .command 0x000000000000000000#72 :: [] ∧
      CmdWord.wellFormed 0x000000000000000000#72 = false := by decide +kernel

/-- StepwiseCommandIsAccepted, StepwiseRunEqualsTheAtomicStep: a command of each kind, another command behind it. -/
theorem test_witness_stepwise :
    (fresh (.stepwise 0x010000000100000000#72)).seq = .idle ∧
      (fresh (.stepwise 0x010000000100000000#72)).moves = .stepwise 0x010000000100000000#72 :: [] ∧
      decode 0x010000000100000000#72 = .instr (.build 1#32) ∧
      decode 0x020000100000000008#72 = .instr (.calculate 0x1000#32 8#32) ∧
      decode 0x030000000100000000#72 = .instr (.rdtbl 1#8) ∧
      ∀ more, [HostMove.command 0#72] ≠ .reset :: more :=
  ⟨rfl, rfl, by decide, by decide, by decide, by simp⟩

/-- ErrorsArePrecise: a step that ends in an error response. -/
theorem test_witness_error : ∃ t, step (fresh (.command 0x030000000100000000#72)) = .next t ∧
    t.responses = .error .noTable 0#32 :: (fresh (.command 0x030000000100000000#72)).responses :=
  ⟨_, rfl, rfl⟩

/-- ResetActsInAnyState: during a `BUILD`. -/
theorem test_witness_reset :
    ({ fresh .reset with seq := .building 7 } : State).moves = .reset :: [] := rfl

/-- WithoutTableOnlyBuildSucceeds, OnlyBuildSetsAndOnlyResetClearsTv (first clause): `BUILD` on a fresh block. -/
theorem test_witness_build_succeeds :
    (fresh (.command 0x010000000000000000#72)).tv = false ∧
    ∃ t, step (fresh (.command 0x010000000000000000#72)) = .next t ∧ t.tv = true ∧
      t.responses = .ok 0#32 :: (fresh (.command 0x010000000000000000#72)).responses := by
  refine ⟨rfl, _, step_command (i := .build 0#32) rfl rfl (by decide), ?_, ?_⟩
  · rfl
  · rfl

/-- OnlyBuildSetsAndOnlyResetClearsTv (second clause). -/
theorem test_witness_reset_clears :
    (built 1#32 [] [.reset]).tv = true ∧ ∃ t, step (built 1#32 [] [.reset]) = .next t ∧ t.tv = false :=
  ⟨rfl, _, step_reset rfl, rfl⟩

/-- BusyBlockIsNotReady: a command waits at the port of a busy block. -/
theorem test_witness_busy :
    ({ fresh (.command 0#72) with seq := .calculating 0x1000#32 8#32 4 } : State).seq ≠ .idle ∧
      ∀ rest, ({ fresh (.command 0#72) with seq := .calculating 0x1000#32 8#32 4 } : State).moves ≠ .reset :: rest := by
  constructor <;> simp [fresh]

/-- IdleBlockWithoutMoveWaits, SmallStepBuildRefinesBuild, SmallStepCalcRefinesCalc,
EveryCommandRespondsInBoundedSteps. -/
theorem test_witness_quiet : State.reset.seq = .idle ∧ State.reset.moves = [] ∧ State.reset.tv = false := ⟨rfl, rfl, rfl⟩

/-- HostChangesMemoryAtOneAddress: at the top of the address space, and where a byte stops answering. -/
theorem test_witness_memory :
    Memory.wf (built 1#32 keyBytes [.memory 0xFFFFFFFF#32 (some 1#8), .memory 0x1003#32 none]).mem = true ∧
      Memory.update keyBytes 0x1003 none = Memory.update (Memory.update keyBytes 0x1003 (some 9#8)) 0x1003 none := by
  decide

/-- StepKeepsTheInvariant, ValidTableIsImmutable, BlockNeverWritesMemory: a step of a block with a table that meets the
invariant, without a reset or a change of memory. -/
theorem test_witness_step :
    (built 0x04C11DB7#32 keyBytes []).tv = true ∧
      step (built 0x04C11DB7#32 keyBytes []) = .next (built 0x04C11DB7#32 keyBytes []) ∧
      (∀ rest, (built 0x04C11DB7#32 keyBytes []).moves ≠ .reset :: rest) ∧
      ∀ a v rest, (built 0x04C11DB7#32 keyBytes []).moves ≠ .memory a v :: rest :=
  ⟨rfl, step_quiet rfl rfl, by simp [built], by simp [built]⟩

/-- A block inside a `CALC` over `keyBytes`, one group absorbed. -/
def midCalc : State :=
  { built 1#32 keyBytes [] with
    seq := .calculating 0x1000#32 8#32 4
    crc := groupStep (Table.ofFn (tableEntry 1#32)) initCrc ⟨0xEF#8, 0xBE#8, 0xAD#8, 0xDE#8⟩ }

/-- StepKeepsTheInvariant: a busy state that meets it. -/
theorem test_witness_inv_busy : State.Inv midCalc :=
  ⟨by decide, fun _ i => Table.get_ofFn _ i, rfl, by decide, by decide, by decide, by decide,
    calcLoop_succ_some (k := 0) (a := 0x1000) (g := ⟨0xEF#8, 0xBE#8, 0xAD#8, 0xDE#8⟩) (by decide)⟩

/-- A block at power-up with a `BUILD` at its port. -/
def startBuild : State := { State.reset with moves := [.command (encode (.build 5#32))], mem := keyBytes }

/-- ReachableTablesBelongToTheirPolynomial: a run from reset that reaches a valid table. -/
theorem test_witness_reachable : Memory.wf keyBytes = true ∧
    ∃ t, Host.Core.run Sys2Proof.core 1 startBuild = .next t ∧ t.tv = true := by
  refine ⟨by decide, ?_⟩
  have h : step startBuild = exec (.build 5#32) (State.takeMove [] startBuild) := step_command rfl rfl (by decide)
  refine ⟨State.respondOk 0#32 (State.loseCrc (State.setTableValid (State.writeTable 5#32
    (State.takeMove [] startBuild)))), ?_, rfl⟩
  show (match step startBuild with
    | .next s' => Host.Core.run Sys2Proof.core 0 s'
    | .fault r => .fault r
    | .refused r => .refused r) = _
  rw [h]
  rfl

/-- UnspecifiedElementsAreNeverObserved: two fresh blocks with different unspecified contents. -/
theorem test_witness_unspecified :
    State.SameButUnspecified State.reset
      { State.reset with table := Table.ofFn (tableEntry 1#32), poly := 7#32, crc := 9#32, draws := 4 } :=
  ⟨rfl, rfl, rfl, rfl, rfl, fun h => by simp at h, trivial⟩

end Sys2Proof.Tests
end

section
/-!
PROOF. The table, the sequencer and the invariant (10_state.md R12, R14, R16, R20; O41, O46 to O50): what each kind of
step does to the table, the memory and the sequencer, then the statements.
-/

namespace Sys2Proof.Machine

/-! ## The table element and its frame -/

/-- Taking the host's move is no change of the table. -/
theorem State.SameTable.of_takeMove {s t : State} {rest : List HostMove}
    (h : State.SameTable (State.takeMove rest s) t) : State.SameTable s t :=
  ⟨h.tv, h.poly, h.table⟩

/-- Writing entry `i` behind `i` right entries makes `i + 1` right entries (R75). -/
theorem Table.get_set_below {t : Table} {f : Byte → U32} {i : Nat}
    (h : ∀ j : Byte, j.toNat < i → Table.get t j = f j) {j : Byte} (hj : j.toNat < i + 1) :
    Table.get (Table.set t (BitVec.ofNat 8 i) (f (BitVec.ofNat 8 i))) j = f j := by
  by_cases e : BitVec.ofNat 8 i = j
  · rw [e, Table.get_set_same]
  · have hne : j.toNat ≠ i := fun hji => e (by rw [← hji, BitVec.ofNat_toNat, BitVec.setWidth_eq])
    rw [Table.get_set_other t _ e]
    exact h j (by omega)

/-! ## What a command, its acceptance and an internal step do to the table -/

/-- A command is the `BUILD` that succeeds, or it leaves the table (R12, R128). -/
theorem exec_table_cases (i : Instr) (s : State) :
    (∃ p, i = .build p ∧ s.tv = false ∧
        exec i s = .next (State.respondOk 0#32 (State.loseCrc (State.setTableValid (State.writeTable p s))))) ∨
      ∃ t, exec i s = .next t ∧ State.SameTable s t := by
  cases i with
  | build p =>
    obtain ⟨_, h⟩ | ⟨htv, h⟩ := @execBuild_cases p s
    · exact .inr ⟨_, h, rfl, rfl, rfl⟩
    · exact .inl ⟨p, rfl, htv, h⟩
  | calculate b l =>
    obtain ⟨_, _, _, h⟩ | ⟨_, ⟨_, _, h⟩ | ⟨_, _, h⟩⟩ := @execCalc_cases b l s <;>
      exact .inr ⟨_, h, rfl, rfl, rfl⟩
  | rdtbl x =>
    obtain ⟨_, h⟩ | ⟨_, h⟩ := @execRdtbl_cases x s <;> exact .inr ⟨_, h, rfl, rfl, rfl⟩

/-- Acceptance responds as the atomic reading does and leaves the table, or makes the block busy (R75, R99). -/
theorem accept_table_cases (i : Instr) (s : State) :
    (exec i s = .next (accept i s) ∧ State.SameTable s (accept i s)) ∨
      (∃ p, i = .build p ∧ s.tv = false ∧ accept i s = { s with poly := p, seq := .building 0 }) ∨
      (∃ b l, i = .calculate b l ∧ calcCheck b l s = none ∧
        accept i s = { s with crc := initCrc, seq := .calculating b l 0 }) := by
  obtain ⟨p, rfl, htv, _⟩ | ⟨t, ht, same⟩ := exec_table_cases i s
  · exact .inr (.inl ⟨p, rfl, htv, by simp [accept, acceptBuild, htv]⟩)
  · obtain h | h := accept_cases i s
    · cases ht.symm.trans h
      exact .inl ⟨h, same⟩
    · exact .inr h

/-- What one internal step can do (R75, R99). -/
inductive MicroStepCase (s : State) : Prop where
  | idle (hq : s.seq = .idle) (hs : microStep s = s)
  | entry (i : Nat) (hq : s.seq = .building i) (hi : i < 256)
      (hs : microStep s =
        { s with
          table := Table.set s.table (BitVec.ofNat 8 i) (tableEntry s.poly (BitVec.ofNat 8 i))
          seq := .building (i + 1) })
  | built (i : Nat) (hq : s.seq = .building i) (hi : 256 ≤ i)
      (hs : microStep s = State.respondOk 0#32 (State.loseCrc (State.setTableValid s)))
  | group (b l : U32) (pos : Nat) (g : Group) (hq : s.seq = .calculating b l pos) (hp : pos < l.toNat)
      (hg : Memory.readGroup s.mem (bufferAddr b pos) = some g)
      (hs : microStep s = { s with crc := groupStep s.table s.crc g, seq := .calculating b l (pos + 4) })
  | bus (b l : U32) (pos : Nat) (hq : s.seq = .calculating b l pos) (hp : pos < l.toNat)
      (hg : Memory.readGroup s.mem (bufferAddr b pos) = none)
      (hs : microStep s = State.raise .bus (busInfo (bufferAddr b pos)) s)
  | sum (b l : U32) (pos : Nat) (hq : s.seq = .calculating b l pos) (hp : l.toNat ≤ pos)
      (hs : microStep s = State.respondOk s.crc s)

/-- Every internal step is one of these. -/
theorem microStep_cases (s : State) : MicroStepCase s := by
  cases hq : s.seq with
  | idle => exact .idle hq (microStep_idle hq)
  | building i =>
    by_cases hi : i < 256
    · exact .entry i hq hi (microStep_building hq hi)
    · exact .built i hq (by omega) (microStep_built hq (by omega))
  | calculating b l pos =>
    by_cases hp : pos < l.toNat
    · cases hg : Memory.readGroup s.mem (bufferAddr b pos) with
      | some g => exact .group b l pos g hq hp hg (microStep_group hq hp hg)
      | none => exact .bus b l pos hq hp hg (microStep_bus hq hp hg)
    · exact .sum b l pos hq (by omega) (microStep_sum hq (by omega))

/-! ## The sequencer's legal values (R20) -/

theorem State.seqLegal_idle {s : State} (h : s.seq = .idle) : State.SeqLegal s := by
  simp [State.SeqLegal, h]

theorem State.seqLegal_building {s : State} {i : Nat} (h : s.seq = .building i) :
    State.SeqLegal s ↔
      i ≤ 256 ∧ s.tv = false ∧ ∀ j : Byte, j.toNat < i → Table.get s.table j = tableEntry s.poly j := by
  simp [State.SeqLegal, h]

theorem State.seqLegal_calculating {s : State} {b l : U32} {pos : Nat} (h : s.seq = .calculating b l pos) :
    State.SeqLegal s ↔
      s.tv = true ∧ lengthOk l = true ∧ rangeOk b l = true ∧ pos % 4 = 0 ∧ pos ≤ l.toNat ∧
        calcLoop s.table s.mem (pos / 4) (bufferAddr b 0) initCrc = .sum s.crc := by
  simp [State.SeqLegal, h]

/-! ## The invariant, operation by operation -/

/-- An idle state with the table and the memory of a state that meets the invariant meets it. -/
theorem State.Inv.of_idle {s t : State} (h : State.Inv s) (same : State.SameTable s t) (hm : t.mem = s.mem)
    (hq : t.seq = .idle) : State.Inv t where
  memory := hm ▸ h.memory
  table htv i := by
    rw [same.table, same.poly]
    exact h.table (same.tv ▸ htv) i
  seq := State.seqLegal_idle hq

/-- An idle state without a table needs its memory only. -/
theorem State.inv_of_noTable {s : State} (hm : Memory.wf s.mem = true) (htv : s.tv = false) (hq : s.seq = .idle) :
    State.Inv s :=
  ⟨hm, fun h => by simp [htv] at h, State.seqLegal_idle hq⟩

/-- The invariant does not speak of the host's moves. -/
theorem State.Inv.takeMove {s : State} (h : State.Inv s) (rest : List HostMove) :
    State.Inv (State.takeMove rest s) :=
  ⟨h.memory, h.table, h.seq⟩

/-- A command keeps the invariant: a successful `BUILD` writes every entry (R73), every other leaves the table. -/
theorem exec_keeps_inv {i : Instr} {s t : State} (hs : State.Inv s) (h : exec i s = .next t) : State.Inv t := by
  obtain ⟨u, r, hu, hq, _, hm, _⟩ := exec_answers i s
  cases hu.symm.trans h
  obtain ⟨p, _, _, hb⟩ | ⟨v, hv, same⟩ := exec_table_cases i s
  · cases hb.symm.trans h
    exact ⟨hs.memory, fun _ j => Table.get_ofFn _ j, State.seqLegal_idle rfl⟩
  · cases hv.symm.trans h
    exact hs.of_idle same hm hq

/-- Acceptance keeps the invariant: a busy block starts with no entry written and no group absorbed. -/
theorem accept_keeps_inv {s : State} (i : Instr) (hs : State.Inv s) : State.Inv (accept i s) := by
  obtain ⟨h, _⟩ | ⟨p, _, htv, h⟩ | ⟨b, l, _, hc, h⟩ := accept_table_cases i s
  · exact exec_keeps_inv hs h
  · rw [h]
    exact ⟨hs.memory, fun ht => by simp [htv] at ht,
      (State.seqLegal_building rfl).2 ⟨Nat.zero_le _, htv, fun _ hj => absurd hj (Nat.not_lt_zero _)⟩⟩
  · obtain ⟨htv, hl, hr⟩ := calcCheck_eq_none.1 hc
    rw [h]
    exact ⟨hs.memory, hs.table,
      (State.seqLegal_calculating rfl).2 ⟨htv, hl, hr, rfl, Nat.zero_le _, calcLoop_zero ..⟩⟩

/-- Absorbing the group at offset `pos` keeps what `CRC` stands for: the loop over the groups before it (R99). -/
theorem calcLoop_absorb {T : Table} {m : Memory} {b : U32} {pos : Nat} {c : U32} {g : Group} (hp : pos % 4 = 0)
    (h : calcLoop T m (pos / 4) (bufferAddr b 0) initCrc = .sum c)
    (hg : Memory.readGroup m (bufferAddr b pos) = some g) :
    calcLoop T m ((pos + 4) / 4) (bufferAddr b 0) initCrc = .sum (groupStep T c g) := by
  have haddr : bufferAddr b pos = bufferAddr b 0 + 4 * (pos / 4) := by
    simp only [bufferAddr]
    omega
  rw [Nat.add_div_right pos (by decide)]
  exact calcLoop_snoc h (haddr ▸ hg)

/-- An internal step keeps the invariant. -/
theorem microStep_keeps_inv {s : State} (hs : State.Inv s) : State.Inv (microStep s) := by
  cases microStep_cases s with
  | idle _ h => rw [h]; exact hs
  | entry i hq hi h =>
    obtain ⟨_, htv, hpre⟩ := (State.seqLegal_building hq).1 hs.seq
    rw [h]
    exact ⟨hs.memory, fun ht => by simp [htv] at ht,
      (State.seqLegal_building rfl).2 ⟨hi, htv, fun _ hj => Table.get_set_below hpre hj⟩⟩
  | built i hq hi h =>
    obtain ⟨_, _, hpre⟩ := (State.seqLegal_building hq).1 hs.seq
    rw [h]
    exact ⟨hs.memory, fun _ j => hpre j (Nat.lt_of_lt_of_le j.isLt hi), State.seqLegal_idle rfl⟩
  | group b l pos g hq hp hg h =>
    obtain ⟨htv, hl, hr, hpos, _, hsum⟩ := (State.seqLegal_calculating hq).1 hs.seq
    have hlen := lengthOk_iff.1 hl
    rw [h]
    exact ⟨hs.memory, hs.table, (State.seqLegal_calculating rfl).2
      ⟨htv, hl, hr, by omega, by omega, calcLoop_absorb hpos hsum hg⟩⟩
  | bus _ _ _ _ _ _ h => exact h ▸ hs.of_idle ⟨rfl, rfl, rfl⟩ rfl rfl
  | sum _ _ _ _ _ h => exact h ▸ hs.of_idle ⟨rfl, rfl, rfl⟩ rfl rfl

/-! ## Every step -/

/-- Every step answers a next state, and the invariant goes with it. -/
theorem step_keeps_inv {s : State} (hs : State.Inv s) : ∃ t, step s = .next t ∧ State.Inv t := by
  cases step_cases s with
  | reset rest _ h => exact ⟨_, h, State.inv_of_noTable hs.memory rfl rfl⟩
  | busy _ _ h => exact ⟨_, h, microStep_keeps_inv hs⟩
  | quiet _ _ h => exact ⟨_, h, hs⟩
  | memory a v rest _ hq h =>
    exact ⟨_, h, Memory.wf_update a v hs.memory, hs.table, State.seqLegal_idle hq⟩
  | command w i rest _ _ _ h =>
    obtain ⟨t, _, ht, _⟩ := exec_answers i (State.takeMove rest s)
    exact ⟨t, h.trans ht, exec_keeps_inv (hs.takeMove rest) ht⟩
  | stepwise w i rest _ _ _ h => exact ⟨_, h, accept_keeps_inv i (hs.takeMove rest)⟩
  | illegal _ _ rest _ _ _ h => exact ⟨_, h, hs.of_idle ⟨rfl, rfl, rfl⟩ rfl rfl⟩

/-- Settles O47: `step_keeps_inv`, which follows the cases of a step. -/
theorem stepKeepsTheInvariant : Obligations.StepKeepsTheInvariant := by
  intro s t hs h
  obtain ⟨u, hu, hinv⟩ := step_keeps_inv hs
  cases hu.symm.trans h
  exact hinv

/-- Settles O41. -/
theorem resetStateHasNoTable : Obligations.ResetStateHasNoTable :=
  ⟨State.reset_tv, State.reset_seq⟩

/-- Settles O46: without a table only the memory is asked for, and it is empty. -/
theorem resetMeetsTheInvariant : Obligations.ResetMeetsTheInvariant :=
  State.inv_of_noTable rfl State.reset_tv State.reset_seq

/-- Settles O48, by induction on the run: the invariant holds at its start and every step keeps it. -/
theorem reachableTablesBelongToTheirPolynomial : Obligations.ReachableTablesBelongToTheirPolynomial := by
  intro n moves mem t hmem hrun htv
  have hstart : State.Inv { State.reset with moves := moves, mem := mem } := State.inv_of_noTable hmem rfl rfl
  have hend : State.Inv t := run_keeps (fun _ => step_keeps_inv) hstart hrun
  exact hend.table htv

/-! ## Who writes the table and `TV` (R12, R16) -/

/-- Acceptance never changes `TV`. -/
@[simp] theorem accept_tv (i : Instr) (s : State) : (accept i s).tv = s.tv := by
  obtain ⟨_, same⟩ | ⟨_, _, _, h⟩ | ⟨_, _, _, _, h⟩ := accept_table_cases i s
  · exact same.tv
  · rw [h]
  · rw [h]

/-- Acceptance at a block with a table leaves it. -/
theorem accept_sameTable {s : State} (i : Instr) (htv : s.tv = true) : State.SameTable s (accept i s) := by
  obtain ⟨_, same⟩ | ⟨_, _, hno, _⟩ | ⟨_, _, _, _, h⟩ := accept_table_cases i s
  · exact same
  · simp [htv] at hno
  · rw [h]
    exact ⟨rfl, rfl, rfl⟩

/-- A command at a block with a table leaves it. -/
theorem exec_sameTable {i : Instr} {s t : State} (htv : s.tv = true) (h : exec i s = .next t) :
    State.SameTable s t := by
  obtain ⟨_, _, hno, _⟩ | ⟨u, hu, same⟩ := exec_table_cases i s
  · simp [htv] at hno
  · cases hu.symm.trans h
    exact same

/-- An internal step at a block with a table leaves it: such a block is not inside a `BUILD`. -/
theorem microStep_sameTable {s : State} (hs : State.Inv s) (htv : s.tv = true) :
    State.SameTable s (microStep s) := by
  have hno : ∀ i, s.seq ≠ .building i := fun i hq => by
    obtain ⟨_, hf, _⟩ := (State.seqLegal_building hq).1 hs.seq
    simp [htv] at hf
  cases microStep_cases s with
  | entry i hq _ _ => exact absurd hq (hno i)
  | built i hq _ _ => exact absurd hq (hno i)
  | idle _ h => rw [h]; exact ⟨rfl, rfl, rfl⟩
  | group _ _ _ _ _ _ _ h => rw [h]; exact ⟨rfl, rfl, rfl⟩
  | bus _ _ _ _ _ _ h => rw [h]; exact ⟨rfl, rfl, rfl⟩
  | sum _ _ _ _ _ h => rw [h]; exact ⟨rfl, rfl, rfl⟩

/-- Settles O49: by the cases of a step, none of which but a reset writes a valid table. -/
theorem validTableIsImmutable : Obligations.ValidTableIsImmutable := by
  intro s t hs htv hr h
  cases step_cases s with
  | reset rest hm _ => exact absurd hm (hr rest)
  | busy _ _ hs' => cases hs'.symm.trans h; exact microStep_sameTable hs htv
  | quiet _ _ hs' => cases hs'.symm.trans h; exact ⟨rfl, rfl, rfl⟩
  | memory _ _ _ _ _ hs' => cases hs'.symm.trans h; exact ⟨rfl, rfl, rfl⟩
  | command _ _ rest _ _ _ hs' =>
    exact .of_takeMove (rest := rest) (exec_sameTable htv (hs'.symm.trans h))
  | stepwise _ i rest _ _ _ hs' => cases hs'.symm.trans h; exact .of_takeMove (accept_sameTable i htv)
  | illegal _ _ _ _ _ _ hs' => cases hs'.symm.trans h; exact ⟨rfl, rfl, rfl⟩

/-- A word that decodes to `BUILD` is `BUILD`'s word (30_encoding.md R53). -/
theorem encode_of_decode_build {w : CmdWord} {p : U32} (h : decode w = .instr (.build p)) :
    w = encode (.build p) := by
  unfold decode at h
  split at h
  · rename_i hop
    split at h
    · rename_i hb
      cases h
      rw [encode, ← hop, ← hb, cmdWord_fields]
    · cases h
  · split at h
    · cases h
    · split at h
      · split at h <;> cases h
      · cases h

/-- An internal step keeps `TV`, but for the last one of a `BUILD`, which sets it (R75). -/
theorem microStep_tv (s : State) :
    (microStep s).tv = s.tv ∨ ((microStep s).tv = true ∧ ∃ i, s.seq = .building i ∧ 256 ≤ i) := by
  cases microStep_cases s with
  | built i hq hi h => exact .inr ⟨by rw [h]; rfl, i, hq, hi⟩
  | idle _ h => exact .inl (by rw [h])
  | entry _ _ _ h => exact .inl (by rw [h])
  | group _ _ _ _ _ _ _ h => exact .inl (by rw [h])
  | bus _ _ _ _ _ _ h => exact .inl (by rw [h]; rfl)
  | sum _ _ _ _ _ h => exact .inl (by rw [h]; rfl)

/-- What a step does to `TV`: a reset clears it, a presented `BUILD` or the last internal step of one sets it, and every
other step keeps it (R16). -/
theorem step_tv {s t : State} (h : step s = .next t) :
    (t.tv = false ∧ ∃ rest, s.moves = .reset :: rest) ∨
      (t.tv = true ∧ ((s.seq = .idle ∧ ∃ p rest, s.moves = .command (encode (.build p)) :: rest) ∨
        ∃ i, s.seq = .building i ∧ 256 ≤ i)) ∨
      t.tv = s.tv := by
  cases step_cases s with
  | reset rest hm hs => cases hs.symm.trans h; exact .inl ⟨rfl, rest, hm⟩
  | busy _ _ hs =>
    cases hs.symm.trans h
    obtain keep | ⟨htv, hlast⟩ := microStep_tv s
    · exact .inr (.inr keep)
    · exact .inr (.inl ⟨htv, .inr hlast⟩)
  | quiet _ _ hs => cases hs.symm.trans h; exact .inr (.inr rfl)
  | memory _ _ _ _ _ hs => cases hs.symm.trans h; exact .inr (.inr rfl)
  | command w i rest hm hq hd hs =>
    obtain ⟨p, rfl, _, hb⟩ | ⟨u, hu, same⟩ := exec_table_cases i (State.takeMove rest s)
    · cases (hs.trans hb).symm.trans h
      exact .inr (.inl ⟨rfl, .inl ⟨hq, p, rest, encode_of_decode_build hd ▸ hm⟩⟩)
    · cases (hs.trans hu).symm.trans h
      exact .inr (.inr same.tv)
  | stepwise _ i rest _ _ _ hs => cases hs.symm.trans h; exact .inr (.inr (accept_tv i _))
  | illegal _ _ _ _ _ _ hs => cases hs.symm.trans h; exact .inr (.inr rfl)

/-- Settles O50, from the three things a step can do to `TV`. -/
theorem onlyBuildSetsAndOnlyResetClearsTv : Obligations.OnlyBuildSetsAndOnlyResetClearsTv := by
  intro s t h
  obtain ⟨htv, hreset⟩ | ⟨htv, hbuild⟩ | keep := step_tv h
  · exact ⟨fun _ ht => by simp [htv] at ht, fun _ _ => hreset⟩
  · exact ⟨fun _ _ => hbuild, fun _ ht => by simp [htv] at ht⟩
  · exact ⟨fun hf ht => by simp [keep, hf] at ht, fun ht hf => by simp [keep, ht] at hf⟩

end Sys2Proof.Machine
end

section
/-!
PROOF. The small-step reading reaches what the command-atomic one answers (40_table_build.md R75, 41_calculate.md R99;
O56): internal steps after acceptance first, then whole runs of the machine.
-/

namespace Sys2Proof.Machine

/-! ## Internal steps -/

@[simp] theorem microSteps_zero (s : State) : microSteps 0 s = s := rfl

theorem microSteps_succ (n : Nat) (s : State) : microSteps (n + 1) s = microSteps n (microStep s) := rfl

/-- An idle block has no internal step. -/
theorem microSteps_idle {s : State} (h : s.seq = .idle) (n : Nat) : microSteps n s = s := by
  induction n with
  | zero => rfl
  | succ n ih => rw [microSteps_succ, microStep_idle h, ih]

/-! ## `BUILD` (R75) -/

/-- With its first `i` entries written, a `BUILD` ends after the `k` others and the last step as the atomic one does. -/
theorem microSteps_building {k i : Nat} {s : State} (hq : s.seq = .building i) (hk : i + k = 256)
    (hpre : ∀ j : Byte, j.toNat < i → Table.get s.table j = tableEntry s.poly j) :
    microSteps (k + 1) s =
      State.respondOk 0#32 (State.loseCrc (State.setTableValid (State.writeTable s.poly s))) := by
  induction k generalizing i s with
  | zero =>
    have htable : s.table = Table.ofFn (tableEntry s.poly) :=
      Table.eq_ofFn fun j => hpre j (by omega)
    have hwrite : State.writeTable s.poly s = s := by rw [State.writeTable, ← htable]
    rw [microSteps_succ, microSteps_zero, microStep_built hq (by omega), hwrite]
  | succ k ih =>
    rw [microSteps_succ, microStep_building hq (by omega),
      ih rfl (by omega) fun j hj => Table.get_set_below hpre hj]
    rfl

/-! ## `CALC` (R99) -/

/-- How `CALC` ends when its checks pass, by the end of its group loop (R93). -/
def State.endCalc : CalcEnd → State → State
  | .sum c, s => State.respondOk c (State.setCrc c s)
  | .bus a, s => State.raise .bus (busInfo a) s

@[simp] theorem State.endCalc_seq (e : CalcEnd) (s : State) : (State.endCalc e s).seq = .idle := by
  cases e <;> rfl

/-- The end of a `CALC` writes `CRC` and `SEQ` whatever they held. -/
theorem State.endCalc_congr (e : CalcEnd) (s : State) (c : U32) (q : Seq) :
    State.endCalc e { s with crc := c, seq := q } = State.endCalc e s := by
  cases e <;> rfl

/-- `CALC` whose checks pass ends as its group loop does. -/
theorem execCalc_checked {b l : U32} {s : State} (h : calcCheck b l s = none) :
    execCalc b l s =
      .next (State.endCalc (calcLoop s.table s.mem (groupCount l) (bufferAddr b 0) initCrc) s) := by
  obtain ⟨_, _, hc, _⟩ | ⟨_, ⟨_, hloop, hx⟩ | ⟨_, hloop, hx⟩⟩ := @execCalc_cases b l s
  · cases h.symm.trans hc
  · rw [hx, hloop]; rfl
  · rw [hx, hloop]; rfl

/-- A `CALC` with `k` groups to come ends within `k + 1` internal steps as the loop over these groups does. -/
theorem microSteps_calculating {k pos : Nat} {b l : U32} {s : State} (hq : s.seq = .calculating b l pos)
    (hk : pos + 4 * k = l.toNat) :
    microSteps (k + 1) s = State.endCalc (calcLoop s.table s.mem k (bufferAddr b pos) s.crc) s := by
  induction k generalizing pos s with
  | zero => rw [microSteps_succ, microSteps_zero, microStep_sum hq (by omega)]; rfl
  | succ k ih =>
    have hp : pos < l.toNat := by omega
    rw [microSteps_succ]
    cases hg : Memory.readGroup s.mem (bufferAddr b pos) with
    | none =>
      rw [microStep_bus hq hp hg, microSteps_idle (State.raise_seq ..), calcLoop_succ_none hg]
      rfl
    | some g =>
      rw [microStep_group hq hp hg, ih rfl (by omega), State.endCalc_congr, calcLoop_succ_some hg]
      rfl

/-! ## Every command -/

/-- After acceptance and its internal steps a command is where the atomic reading of it ends (R75, R99). -/
theorem exec_eq_microSteps (i : Instr) (s : State) :
    exec i s = .next (microSteps (internalSteps i) (accept i s)) := by
  obtain ⟨h, _⟩ | ⟨p, rfl, htv, ha⟩ | ⟨b, l, rfl, hc, ha⟩ := accept_table_cases i s
  · obtain ⟨t, _, ht, hq, _⟩ := exec_answers i s
    cases ht.symm.trans h
    rw [microSteps_idle hq, h]
  · rw [ha, internalSteps, microSteps_building (k := 256) (i := 0) rfl rfl fun _ hj => absurd hj (Nat.not_lt_zero _)]
    simp only [exec, execBuild, State.tableValid_eq, htv]
    rfl
  · obtain ⟨_, hl, _⟩ := calcCheck_eq_none.1 hc
    have hlen := lengthOk_iff.1 hl
    rw [ha, internalSteps, microSteps_calculating (k := groupCount l) rfl (by simp only [groupCount]; omega),
      State.endCalc_congr]
    exact execCalc_checked hc

/-! ## Runs of the machine -/

/-- An internal step leaves the host's moves (R57). -/
@[simp] theorem microStep_moves (s : State) : (microStep s).moves = s.moves := by
  cases microStep_cases s with
  | idle _ h => rw [h]
  | entry _ _ _ h => rw [h]
  | built _ _ _ h => rw [h]; rfl
  | group _ _ _ _ _ _ _ h => rw [h]
  | bus _ _ _ _ _ _ h => rw [h]; rfl
  | sum _ _ _ _ _ h => rw [h]; rfl

/-- Acceptance leaves the host's moves. -/
@[simp] theorem accept_moves (i : Instr) (s : State) : (accept i s).moves = s.moves := by
  obtain ⟨h, _⟩ | ⟨_, _, _, h⟩ | ⟨_, _, _, h⟩ := accept_table_cases i s
  · obtain ⟨_, _, ht, _, _, _, hmoves⟩ := exec_answers i s
    cases ht.symm.trans h
    exact hmoves
  · rw [h]
  · rw [h.2]

/-- Unless a reset is the host's next move, a run reaches the end of `n` internal steps in at most `n` steps: the block
leaves the other moves waiting while it is busy (R57), and an idle block is at the end already. -/
theorem run_microSteps {n : Nat} {s : State} (hr : ∀ rest, s.moves ≠ .reset :: rest) :
    ∃ m, m ≤ n ∧ Host.Core.run Sys2Proof.core m s = .next (microSteps n s) := by
  induction n generalizing s with
  | zero => exact ⟨0, Nat.le_refl 0, run_zero s⟩
  | succ n ih =>
    by_cases hq : s.seq = .idle
    · exact ⟨0, Nat.zero_le _, by rw [run_zero, microSteps_idle hq]⟩
    · obtain ⟨m, hm, hrun⟩ := ih (s := microStep s) (by simpa using hr)
      exact ⟨m + 1, Nat.succ_le_succ hm, (run_succ (step_busy hr hq)).trans hrun⟩

/-- Settles O56: the acceptance is one step, the internal steps follow it, and the command's atomic step ends where they
do. -/
theorem stepwiseRunEqualsTheAtomicStep : Obligations.StepwiseRunEqualsTheAtomicStep := by
  intro s w rest i hq hm hd hr
  obtain ⟨m, hle, hrun⟩ :=
    run_microSteps (n := internalSteps i) (s := accept i (State.takeMove rest s)) (by simpa using hr)
  have haccept : Host.Core.run Sys2Proof.core (m + 1) s =
      Host.Core.run Sys2Proof.core m (accept i (State.takeMove rest s)) := run_succ (step_stepwise hm hq hd)
  have hatomic : step { s with moves := .command w :: rest } = exec i (State.takeMove rest s) :=
    step_command (s := { s with moves := .command w :: rest }) rfl hq hd
  exact ⟨m + 1, Nat.succ_le_succ hle,
    (haccept.trans hrun).trans (hatomic.trans (exec_eq_microSteps i _)).symm⟩

end Sys2Proof.Machine
end

section
/-!
PROOF. `CALC` and the bit-serial CRC (41_calculate.md R93, R98; O27): an update by a built table is eight shift steps,
the group loop over a mapped buffer is the loop of R92, and both end at the shift-register CRC.
-/

namespace Sys2Proof.Machine

/-! ## The shift steps are linear (40_table_build.md R74) -/

/-- One iteration with its test written as a term that is exclusive-ored in. -/
theorem shiftStep_eq_xor (p c : U32) : shiftStep p c = (c <<< 1) ^^^ (if c.getLsbD 31 then p else 0#32) := by
  unfold shiftStep
  split <;> simp

/-- An iteration is linear: each of the two words brings its own term (R74). -/
theorem shiftStep_xor (p c d : U32) : shiftStep p (c ^^^ d) = shiftStep p c ^^^ shiftStep p d := by
  have hterm : ∀ x y : Bool,
      (if (x ^^ y) = true then p else 0#32) =
        (if x = true then p else 0#32) ^^^ (if y = true then p else 0#32) := fun x y => by
    cases x <;> cases y <;> simp
  simp only [shiftStep_eq_xor, BitVec.getLsbD_xor, BitVec.shiftLeft_xor_distrib, hterm]
  ac_rfl

theorem shiftSteps_xor (p : U32) (n : Nat) (c d : U32) :
    shiftSteps p n (c ^^^ d) = shiftSteps p n c ^^^ shiftSteps p n d := by
  induction n generalizing c d with
  | zero => rfl
  | succ n ih => simp only [shiftSteps, shiftStep_xor, ih]

/-- The polynomial never enters a word whose top `n` bits are clear. -/
theorem shiftSteps_of_clear (p : U32) {n : Nat} {c : U32} (h : ∀ i, 32 - n ≤ i → c.getLsbD i = false)
    (hn : n ≤ 32) : shiftSteps p n c = c <<< n := by
  induction n generalizing c with
  | zero => simp [shiftSteps]
  | succ n ih =>
    have hstep : shiftStep p c = c <<< 1 := by
      simp only [shiftStep, h 31 (by omega), Bool.false_eq_true, if_false]
    rw [shiftSteps, hstep, ih _ (by omega), ← BitVec.shiftLeft_add, Nat.add_comm]
    intro i hi
    simp [h (i - 1) (by omega)]

/-! ## An update by a built table (R98) -/

/-- The accumulator with a byte in its top octet: the table index there, and the low 24 bits as they are. -/
theorem xor_topOctet_split (c : U32) (b : Byte) :
    c ^^^ topOctet b = topOctet (updIndex c b) ^^^ (c <<< 8 >>> 8) := by
  apply BitVec.eq_of_getLsbD_eq
  intro i hi
  simp only [topOctet, updIndex, BitVec.getLsbD_xor, BitVec.getLsbD_shiftLeft, BitVec.getLsbD_ushiftRight,
    BitVec.getLsbD_setWidth]
  by_cases h : i < 24
  · simp [h, hi, show 8 + i < 32 by omega]
  · simp [h, hi, show ¬ 8 + i < 32 by omega, show i - 24 < 8 by omega, show i - 24 < 32 by omega,
      show 24 + (i - 24) = i by omega]

/-- An update by the table of `p` is eight shift steps: the index's share of them is its table entry, and the low bits
are only shifted. -/
theorem upd_eq_updSerial {p : U32} {T : Table} (hT : ∀ i : Byte, Table.get T i = tableEntry p i) (c : U32)
    (b : Byte) : upd T c b = updSerial p c b := by
  have hclear : ∀ i, 32 - 8 ≤ i → (c <<< 8 >>> 8).getLsbD i = false := fun i hi => by
    simp [show 32 ≤ 8 + i by omega]
  have hlow : c <<< 8 >>> 8 <<< 8 = c <<< 8 := by
    apply BitVec.eq_of_getLsbD_eq
    intro i hi
    by_cases h : i < 8
    · simp [h]
    · simp [h, hi, show 8 + (i - 8) = i by omega]
  rw [upd, updSerial, xor_topOctet_split, shiftSteps_xor, shiftSteps_of_clear p hclear (by decide), hlow, hT,
    tableEntry, buildIter, BitVec.xor_comm]

/-! ## Whole groups -/

/-- A group step by a built table absorbs the group's bytes from the last to the first (R91, R98). -/
theorem serialCrc_group {p : U32} {T : Table} (hT : ∀ i : Byte, Table.get T i = tableEntry p i) (c : U32)
    (g : Group) (l : List Byte) :
    serialCrc p c (g.b3 :: g.b2 :: g.b1 :: g.b0 :: l) = serialCrc p (groupStep T c g) l := by
  simp only [serialCrc, groupStep, upd_eq_updSerial hT]

/-- The loop of `CALC` over `k` mapped groups is the shift-register CRC over their group-reversed bytes. -/
theorem calcLoop_eq_serialCrc {p : U32} {T : Table} (hT : ∀ i : Byte, Table.get T i = tableEntry p i) {m : Memory}
    {k a : Nat} {c : U32} {buf : List Byte} (hbuf : Memory.buffer m a (4 * k) = some buf) :
    ∃ stream, visitOrder buf = some stream ∧ calcLoop T m k a c = .sum (serialCrc p c stream) := by
  induction k generalizing a c buf with
  | zero =>
    cases hbuf
    exact ⟨[], rfl, rfl⟩
  | succ k ih =>
    obtain ⟨g, rest, hg, hrest, rfl⟩ := Memory.buffer_group.1 hbuf
    obtain ⟨stream, hs, hloop⟩ := ih (c := groupStep T c g) hrest
    refine ⟨g.b3 :: g.b2 :: g.b1 :: g.b0 :: stream, by simp [visitOrder, hs], ?_⟩
    rw [calcLoop_succ_some hg, hloop, serialCrc_group hT]

/-- A list is the buffer when every byte of it answers at its place (20_memory.md R30). -/
theorem Memory.buffer_of_reads {m : Memory} {a : Nat} {buf : List Byte}
    (h : ∀ (j : Nat) (hj : j < buf.length), Memory.read m (a + j) = some buf[j]) :
    Memory.buffer m a buf.length = some buf := by
  induction buf generalizing a with
  | nil => rfl
  | cons b bs ih =>
    refine Memory.buffer_succ.2 ⟨b, bs, h 0 (by simp), ih fun j hj => ?_, rfl⟩
    rw [Nat.add_assoc, Nat.add_comm 1 j]
    exact h (j + 1) (by simpa using hj)

/-- Settles O27: the invariant makes the table that of `POLY`, and the loop over the mapped buffer is then the
shift-register CRC. -/
theorem calcAnswersTheSerialCrcOfPoly : Obligations.CalcAnswersTheSerialCrcOfPoly := by
  intro b l s buf hs htv hlen hrange hbuf hread
  have hmapped : Memory.buffer s.mem (bufferAddr b 0) (4 * groupCount l) = some buf := by
    have hn : 4 * groupCount l = buf.length := by simp only [groupCount]; omega
    rw [hn]
    exact Memory.buffer_of_reads hread
  obtain ⟨stream, hstream, hloop⟩ := calcLoop_eq_serialCrc (hs.table htv) (c := initCrc) hmapped
  have hcheck : calcCheck b l s = none :=
    calcCheck_eq_none.2 ⟨htv, lengthOk_iff.2 hlen, rangeOk_iff.2 hrange⟩
  exact ⟨stream, _, hstream, execCalc_checked hcheck, by rw [hloop]; rfl⟩

end Sys2Proof.Machine
end

section
/-!
PROOF. The buffer memory (20_memory.md R30 to R32, R41; O32, O44, O51): who changes it, what a change does, and when a
group read fails.
-/

namespace Sys2Proof.Machine

/-! ## The block never writes memory (R32) -/

/-- An internal step leaves the memory. -/
@[simp] theorem microStep_mem (s : State) : (microStep s).mem = s.mem := by
  cases microStep_cases s with
  | idle _ h => rw [h]
  | entry _ _ _ h => rw [h]
  | built _ _ _ h => rw [h]; rfl
  | group _ _ _ _ _ _ _ h => rw [h]
  | bus _ _ _ _ _ _ h => rw [h]; rfl
  | sum _ _ _ _ _ h => rw [h]; rfl

/-- Acceptance leaves the memory. -/
@[simp] theorem accept_mem (i : Instr) (s : State) : (accept i s).mem = s.mem := by
  obtain ⟨h, _⟩ | ⟨_, _, _, h⟩ | ⟨_, _, _, _, h⟩ := accept_table_cases i s
  · obtain ⟨_, _, ht, _, _, hmem, _⟩ := exec_answers i s
    cases ht.symm.trans h
    exact hmem
  · rw [h]
  · rw [h]

/-- What a step does to the memory: the host's change at one address, or nothing. -/
theorem step_mem {s t : State} (h : step s = .next t) :
    (∃ a v rest, s.moves = .memory a v :: rest ∧ t.mem = Memory.update s.mem a.toNat v) ∨ t.mem = s.mem := by
  cases step_cases s with
  | memory a v rest hm _ hs => cases hs.symm.trans h; exact .inl ⟨a, v, rest, hm, rfl⟩
  | reset _ _ hs => cases hs.symm.trans h; exact .inr rfl
  | busy _ _ hs => cases hs.symm.trans h; exact .inr (microStep_mem s)
  | quiet _ _ hs => cases hs.symm.trans h; exact .inr rfl
  | command _ i rest _ _ _ hs =>
    obtain ⟨_, _, ht, _, _, hmem, _⟩ := exec_answers i (State.takeMove rest s)
    cases (hs.trans ht).symm.trans h
    exact .inr hmem
  | stepwise _ i _ _ _ _ hs => cases hs.symm.trans h; exact .inr (accept_mem i _)
  | illegal _ _ _ _ _ _ hs => cases hs.symm.trans h; exact .inr rfl

/-- Settles O51: of the two things a step can do to the memory, the host's change is excluded. -/
theorem blockNeverWritesMemory : Obligations.BlockNeverWritesMemory := by
  intro s t hno h a
  obtain ⟨x, v, rest, hm, _⟩ | keep := step_mem h
  · exact absurd hm (hno x v rest)
  · rw [keep]

/-! ## A host's change of memory (R30, R41) -/

/-- In a canonical memory a change is what is read at its address. -/
theorem Memory.read_update_same {m : Memory} (a : Nat) (v : Option Byte) (h : Memory.wf m = true) :
    Memory.read (Memory.update m a v) a = v :=
  Memory.read_updateFrom_same v h

/-- Settles O44: the step is the change of memory, and the laws of `Memory.update` say what is read after it. -/
theorem hostChangesMemoryAtOneAddress : Obligations.HostChangesMemoryAtOneAddress := by
  intro s addr v rest hwf hq hm
  exact ⟨_, step_memory hm hq, Memory.read_update_same addr.toNat v hwf, fun _ ha => Memory.read_update_other v ha,
    Memory.wf_update addr v hwf, ⟨rfl, rfl, rfl⟩, rfl, hq, rfl, rfl⟩

/-! ## Group reads (R31) -/

/-- A group read fails exactly when one of its four bytes does not answer. -/
theorem Memory.readGroup_eq_none {m : Memory} {a : Nat} :
    Memory.readGroup m a = none ↔ ∃ k, k < 4 ∧ Memory.read m (a + k) = none := by
  constructor
  · intro h
    by_contra hall
    have mapped : ∀ k, k < 4 → ∃ b, Memory.read m (a + k) = some b := fun k hk =>
      Option.ne_none_iff_exists'.1 fun hk' => hall ⟨k, hk, hk'⟩
    obtain ⟨b0, h0⟩ := mapped 0 (by decide)
    obtain ⟨b1, h1⟩ := mapped 1 (by decide)
    obtain ⟨b2, h2⟩ := mapped 2 (by decide)
    obtain ⟨b3, h3⟩ := mapped 3 (by decide)
    have hg : Memory.readGroup m a = some ⟨b0, b1, b2, b3⟩ := Memory.readGroup_eq_some.2 ⟨h0, h1, h2, h3⟩
    cases h.symm.trans hg
  · rintro ⟨k, hk, hnone⟩
    refine Option.eq_none_iff_forall_ne_some.2 fun g hg => ?_
    obtain ⟨h0, h1, h2, h3⟩ := Memory.readGroup_eq_some.1 hg
    obtain rfl | rfl | rfl | rfl : k = 0 ∨ k = 1 ∨ k = 2 ∨ k = 3 := by omega
    · cases hnone.symm.trans h0
    · cases hnone.symm.trans h1
    · cases hnone.symm.trans h2
    · cases hnone.symm.trans h3

/-- Settles O32: the group read's two answers, each said by its own law. -/
theorem groupReadFailsOnAnyUnmappedByte : Obligations.GroupReadFailsOnAnyUnmappedByte :=
  fun _ _ => ⟨fun _ => Memory.readGroup_eq_some, Memory.readGroup_eq_none⟩

end Sys2Proof.Machine
end

section
/-!
PROOF. The command words (30_encoding.md R50 to R55, R59; O1 to O7): the decoder's equations by the fields, the round
trip in both directions, and the opcode map. Both directions together make `decode w = .instr i` the equation
`w = encode i`, from which the statements about operands and rows follow.
-/

namespace Sys2Proof

/-! ## The fields of a word -/

/-- A word is written from given fields exactly when they are its fields (R50). -/
theorem eq_cmdWord_iff {w : CmdWord} {op : Byte} {a b : U32} :
    w = cmdWord op a b ↔ CmdWord.op w = op ∧ CmdWord.a w = a ∧ CmdWord.b w = b := by
  constructor
  · rintro rfl
    exact ⟨CmdWord.op_cmdWord .., CmdWord.a_cmdWord .., CmdWord.b_cmdWord ..⟩
  · rintro ⟨rfl, rfl, rfl⟩
    exact (cmdWord_fields w).symm

/-- Field `A` of `RDTBL` is its reserved bits and its index (R52). -/
theorem CmdWord.a_eq_append_iff {w : CmdWord} {hi : BitVec 24} {lo : Byte} :
    CmdWord.a w = hi ++ lo ↔ CmdWord.rdtblReserved w = hi ∧ CmdWord.rdtblIdx w = lo := by
  unfold CmdWord.rdtblReserved CmdWord.rdtblIdx
  constructor
  · intro h
    rw [h]
    exact ⟨BitVec.extractLsb'_append_eq_left, BitVec.extractLsb'_append_eq_right⟩
  · rintro ⟨rfl, rfl⟩
    exact (BitVec.extractLsb'_append_extractLsb' (w := 24) (len := 8)).symm

/-- The reserved bits of `RDTBL` are bits [63:40] of the word. -/
theorem CmdWord.rdtblReserved_eq (w : CmdWord) : CmdWord.rdtblReserved w = w.extractLsb' 40 24 := by
  apply BitVec.eq_of_getLsbD_eq
  intro i hi
  simp [CmdWord.rdtblReserved, CmdWord.a, hi, show 8 + i < 32 by omega, ← Nat.add_assoc]

/-- The index of `RDTBL` is bits [39:32] of the word. -/
theorem CmdWord.rdtblIdx_eq (w : CmdWord) : CmdWord.rdtblIdx w = w.extractLsb' 32 8 := by
  apply BitVec.eq_of_getLsbD_eq
  intro i hi
  simp [CmdWord.rdtblIdx, CmdWord.a, hi, show i < 32 by omega]

/-! ## The decoder's equations (R53 to R55) -/

theorem decode_build {w : CmdWord} (hop : CmdWord.op w = 0x01#8) (hb : CmdWord.b w = 0#32) :
    decode w = .instr (.build (CmdWord.a w)) := by
  simp [decode, hop, hb]

theorem decode_build_reserved {w : CmdWord} (hop : CmdWord.op w = 0x01#8) (hb : CmdWord.b w ≠ 0#32) :
    decode w = .illegal .reserved := by
  simp [decode, hop, hb]

theorem decode_calculate {w : CmdWord} (hop : CmdWord.op w = 0x02#8) :
    decode w = .instr (.calculate (CmdWord.a w) (CmdWord.b w)) := by
  simp [decode, hop]

theorem decode_rdtbl {w : CmdWord} (hop : CmdWord.op w = 0x03#8) (hr : CmdWord.rdtblReserved w = 0#24)
    (hb : CmdWord.b w = 0#32) : decode w = .instr (.rdtbl (CmdWord.rdtblIdx w)) := by
  simp [decode, hop, hr, hb]

theorem decode_rdtbl_reserved {w : CmdWord} (hop : CmdWord.op w = 0x03#8)
    (h : CmdWord.rdtblReserved w ≠ 0#24 ∨ CmdWord.b w ≠ 0#32) : decode w = .illegal .reserved := by
  simp [decode, hop, Decidable.not_and_iff_not_or_not.2 h]

theorem decode_opcode {w : CmdWord} (h1 : CmdWord.op w ≠ 0x01#8) (h2 : CmdWord.op w ≠ 0x02#8)
    (h3 : CmdWord.op w ≠ 0x03#8) : decode w = .illegal .opcode := by
  simp [decode, h1, h2, h3]

/-- What a word can decode to, with the fields that decide it. -/
inductive DecodeCase (w : CmdWord) : Prop where
  | build (hop : CmdWord.op w = 0x01#8) (hb : CmdWord.b w = 0#32)
      (hd : decode w = .instr (.build (CmdWord.a w)))
  | calculate (hop : CmdWord.op w = 0x02#8) (hd : decode w = .instr (.calculate (CmdWord.a w) (CmdWord.b w)))
  | rdtbl (hop : CmdWord.op w = 0x03#8) (hr : CmdWord.rdtblReserved w = 0#24) (hb : CmdWord.b w = 0#32)
      (hd : decode w = .instr (.rdtbl (CmdWord.rdtblIdx w)))
  | illegal (why : Illegal) (hd : decode w = .illegal why)

/-- Every word is one of these. -/
theorem decode_cases (w : CmdWord) : DecodeCase w := by
  by_cases h1 : CmdWord.op w = 0x01#8
  · by_cases hb : CmdWord.b w = 0#32
    · exact .build h1 hb (decode_build h1 hb)
    · exact .illegal _ (decode_build_reserved h1 hb)
  by_cases h2 : CmdWord.op w = 0x02#8
  · exact .calculate h2 (decode_calculate h2)
  by_cases h3 : CmdWord.op w = 0x03#8
  · by_cases h : CmdWord.rdtblReserved w = 0#24 ∧ CmdWord.b w = 0#32
    · exact .rdtbl h3 h.1 h.2 (decode_rdtbl h3 h.1 h.2)
    · exact .illegal _ (decode_rdtbl_reserved h3 (Decidable.not_and_iff_not_or_not.1 h))
  exact .illegal _ (decode_opcode h1 h2 h3)

/-! ## The round trip -/

/-- Decoding undoes encoding (R52, R53). -/
@[simp] theorem decode_encode (i : Instr) : decode (encode i) = .instr i := by
  cases i with
  | build p =>
    obtain ⟨hop, ha, hb⟩ := eq_cmdWord_iff.1 (Eq.refl (encode (.build p)))
    rw [decode_build hop hb, ha]
  | calculate b l =>
    obtain ⟨hop, ha, hb⟩ := eq_cmdWord_iff.1 (Eq.refl (encode (.calculate b l)))
    rw [decode_calculate hop, ha, hb]
  | rdtbl x =>
    obtain ⟨hop, ha, hb⟩ := eq_cmdWord_iff.1 (Eq.refl (encode (.rdtbl x)))
    obtain ⟨hr, hx⟩ := CmdWord.a_eq_append_iff.1 ha
    rw [decode_rdtbl hop hr hb, hx]

/-- A word decodes to an instruction exactly when it is the instruction's one word (R52 to R54). -/
theorem decode_eq_instr_iff {w : CmdWord} {i : Instr} : decode w = .instr i ↔ w = encode i := by
  constructor
  · intro h
    cases decode_cases w with
    | build hop hb hd => cases hd.symm.trans h; exact eq_cmdWord_iff.2 ⟨hop, rfl, hb⟩
    | calculate hop hd => cases hd.symm.trans h; exact eq_cmdWord_iff.2 ⟨hop, rfl, rfl⟩
    | rdtbl hop hr hb hd =>
      cases hd.symm.trans h
      exact eq_cmdWord_iff.2 ⟨hop, CmdWord.a_eq_append_iff.2 ⟨hr, rfl⟩, hb⟩
    | illegal _ hd => cases hd.symm.trans h
  · rintro rfl
    exact decode_encode i

/-- Settles O1: `decode_encode`, which reads the fields of each written word back. -/
theorem decodeOfEncodeIsTheInstruction : Obligations.DecodeOfEncodeIsTheInstruction :=
  fun i _ => decode_encode i

/-- Settles O2: the fields that a decoded word must have are those its encoding is written from. -/
theorem encodeOfDecodeIsTheWord : Obligations.EncodeOfDecodeIsTheWord :=
  fun _ _ h => (decode_eq_instr_iff.1 h).symm

/-- Settles O3: the fields of the one word of each command. -/
theorem operandsAreTheFieldsVerbatim : Obligations.OperandsAreTheFieldsVerbatim := by
  intro w
  refine ⟨fun p => decode_eq_instr_iff.trans eq_cmdWord_iff, fun b l => decode_eq_instr_iff.trans eq_cmdWord_iff,
    fun x => ?_⟩
  rw [decode_eq_instr_iff, encode, eq_cmdWord_iff, CmdWord.a_eq_append_iff, CmdWord.rdtblReserved_eq,
    CmdWord.rdtblIdx_eq, and_assoc]
  rfl

/-- Settles O6: the illegal equations of the decoder. -/
theorem reservedBitsAndOtherOpcodesAreIllegal : Obligations.ReservedBitsAndOtherOpcodesAreIllegal := by
  intro w
  rw [← CmdWord.rdtblReserved_eq]
  exact ⟨decode_build_reserved, decode_rdtbl_reserved, decode_opcode⟩

/-- Settles O7: nine evaluations of the decoder on the words of R59. -/
theorem workedEncodingsDecode : Obligations.WorkedEncodingsDecode := by
  unfold Obligations.WorkedEncodingsDecode
  decide

/-! ## The opcode map (R53) -/

/-- Every instruction's word selects the instruction's row and no other. -/
theorem encode_selects_its_row (i : Instr) : Laws.EncodesToItsRow.Statement i := by
  cases i with
  | build p => exact Laws.EncodesToItsRow.build p
  | calculate b l => exact Laws.EncodesToItsRow.calculate b l
  | rdtbl x => exact Laws.EncodesToItsRow.rdtbl x

/-- A row of an instruction is in the opcode map. -/
theorem row_mem_opcodeMap (i : Instr) : Instr.row i ∈ opcodeMap := by
  cases i with
  | build _ => exact .head _
  | calculate _ _ => exact .tail _ (.head _)
  | rdtbl _ => exact .tail _ (.tail _ (.head _))

/-- The mask of `RDTBL`'s row on field `A` tests its reserved bits. -/
theorem CmdWord.rdtblReserved_of_mask {w : CmdWord} (h : CmdWord.a w &&& 0xFFFFFF00#32 = 0#32) :
    CmdWord.rdtblReserved w = 0#24 := by
  have hbits : (0xFFFFFF00#32).extractLsb' 8 24 = BitVec.allOnes 24 := rfl
  have hsel := congrArg (BitVec.extractLsb' 8 24) h
  rwa [BitVec.extractLsb'_and, hbits, BitVec.and_allOnes, BitVec.extractLsb'_zero] at hsel

/-- A word that selects a row of the map is the word of an instruction. -/
theorem eq_encode_of_selects {w : CmdWord} {r : OpcodeRow} (hr : r ∈ opcodeMap)
    (h : OpcodeRow.selects r w = true) : ∃ i, w = encode i := by
  rw [← cmdWord_fields w] at h
  obtain rfl | rfl | rfl := Laws.EncodesToItsRow.mem_opcodeMap hr
  · obtain ⟨hop, hb⟩ := (Laws.EncodesToItsRow.selects_build ..).1 h
    exact ⟨_, decode_eq_instr_iff.1 (decode_build hop hb)⟩
  · have hop := (Laws.EncodesToItsRow.selects_calc ..).1 h
    exact ⟨_, decode_eq_instr_iff.1 (decode_calculate hop)⟩
  · obtain ⟨hop, hmask, hb⟩ := (Laws.EncodesToItsRow.selects_rdtbl ..).1 h
    exact ⟨_, decode_eq_instr_iff.1 (decode_rdtbl hop (CmdWord.rdtblReserved_of_mask hmask) hb)⟩

/-- The well-formed words are the words of the instructions: mask and match say the same as the decoder (R53, R55). -/
theorem CmdWord.wellFormed_iff {w : CmdWord} : CmdWord.wellFormed w = true ↔ ∃ i, w = encode i := by
  rw [CmdWord.wellFormed, List.any_eq_true]
  constructor
  · rintro ⟨r, hr, h⟩
    exact eq_encode_of_selects hr h
  · rintro ⟨i, rfl⟩
    exact ⟨Instr.row i, row_mem_opcodeMap i, (encode_selects_its_row i).1⟩

/-- A word of no row is exactly an illegal word (R55). -/
theorem CmdWord.wellFormed_eq_false_iff {w : CmdWord} :
    CmdWord.wellFormed w = false ↔ ∃ why, decode w = .illegal why := by
  rw [← Bool.not_eq_true, CmdWord.wellFormed_iff]
  cases hd : decode w with
  | instr i => simp [decode_eq_instr_iff.1 hd]
  | illegal why =>
    have hno : ¬ ∃ i, w = encode i := fun ⟨i, hi⟩ => by cases hd.symm.trans (decode_eq_instr_iff.2 hi)
    simpa using hno

/-- Settles O4: a decoded word is an instruction's word, which selects that instruction's row. -/
theorem decoderAgreesWithMaskAndMatch : Obligations.DecoderAgreesWithMaskAndMatch := by
  intro w
  cases hd : decode w with
  | instr i =>
    have hw := decode_eq_instr_iff.1 hd
    exact .inl ⟨i, rfl, hw ▸ (encode_selects_its_row i).1, CmdWord.wellFormed_iff.2 ⟨i, hw⟩⟩
  | illegal why => exact .inr ⟨why, rfl, CmdWord.wellFormed_eq_false_iff.2 ⟨why, hd⟩⟩

/-- Settles O5: a word that selects a row is an instruction's word, and both rows are that instruction's. -/
theorem opcodeRowsAreDisjoint : Obligations.OpcodeRowsAreDisjoint := by
  intro w r r' hr hr' h h'
  obtain ⟨i, rfl⟩ := eq_encode_of_selects hr h
  obtain ⟨-, unique⟩ := encode_selects_its_row i
  exact (unique r hr h).trans (unique r' hr' h').symm

end Sys2Proof
end

section
/-!
PROOF. The response words (30_encoding.md R51, 60_exceptions.md R120; O8, O9).
-/

namespace Sys2Proof.Machine

/-- `ST` is bits [39:32] of the response word. -/
@[simp] theorem Response.extract_st_word (r : Response) : (Response.word r).extractLsb' 32 8 = Response.st r :=
  BitVec.extractLsb'_append_eq_left

/-- `VAL` is bits [31:0] of the response word. -/
@[simp] theorem Response.extract_val_word (r : Response) : (Response.word r).extractLsb' 0 32 = Response.val r :=
  BitVec.extractLsb'_append_eq_right

/-- No error has the status of OK (R120). -/
theorem Err.code_ne_zero (e : Err) : Err.code e ≠ 0x00#8 := by
  cases e <;> decide

/-- The codes of the errors are distinct (R120). -/
theorem Err.code_injective {e e' : Err} (h : Err.code e = Err.code e') : e = e' := by
  cases e <;> cases e' <;> simp [Err.code] at h ⊢

/-- Status and value determine the response. -/
theorem Response.ext_st_val {r r' : Response} (hst : Response.st r = Response.st r')
    (hval : Response.val r = Response.val r') : r = r' := by
  cases r with
  | ok v =>
    cases r' with
    | ok v' => exact congrArg Response.ok hval
    | error e' i' => exact absurd hst.symm (Err.code_ne_zero e')
  | error e i =>
    cases r' with
    | ok v' => exact absurd hst (Err.code_ne_zero e)
    | error e' i' => rw [Err.code_injective hst, show i = i' from hval]

/-- Settles O8: the two halves of the word, and the code of each error. -/
theorem responseWordLayout : Obligations.ResponseWordLayout := by
  intro v
  refine ⟨⟨Response.extract_st_word _, Response.extract_val_word _⟩, fun e => ⟨Response.extract_val_word _, ?_⟩⟩
  rw [Response.extract_st_word]
  cases e <;> rfl

/-- Settles O9: the word gives status and value back, and these the response. -/
theorem responseWordsAreDistinct : Obligations.ResponseWordsAreDistinct := by
  intro r r' h
  exact Response.ext_st_val (by rw [← Response.extract_st_word, h, Response.extract_st_word])
    (by rw [← Response.extract_val_word, h, Response.extract_val_word])

end Sys2Proof.Machine
end

section
/-!
PROOF. The command port (30_encoding.md R55, R57; O34 to O36, O42, O55): what a step does with a presented word, and
that a busy block takes none.
-/

namespace Sys2Proof.Machine

/-- Settles O34: a step's own law, the word taken from the port by `State.takeMove`. -/
theorem stepRunsTheDecodedCommand : Obligations.StepRunsTheDecodedCommand :=
  fun _ _ _ _ hq hm hd => step_command hm hq hd

/-- Settles O55: the same law in the small-step reading. -/
theorem stepwiseCommandIsAccepted : Obligations.StepwiseCommandIsAccepted :=
  fun _ _ _ _ hq hm hd => step_stepwise hm hq hd

/-- What the opcode table's numbering of a word decodes to is what the decoder reads from the word. -/
theorem decode_tableWord {n w : Nat} {i : Instr} (h : decodeTableWord n w = some i) :
    decode (tableWord n w) = .instr i := by
  unfold decodeTableWord at h
  split at h
  · cases hd : decode (tableWord n w) with
    | instr j => simp only [hd] at h; rw [Option.some.inj h]
    | illegal _ => simp [hd] at h
  · cases h

/-- Settles O35: the presented word is the next move of a block made idle. -/
theorem fetchWordRunsNext : Obligations.FetchWordRunsNext := by
  intro s w i _ h
  exact step_command (State.withFetchWord_moves s 72 w) (State.withFetchWord_seq s 72 w) (decode_tableWord h)

/-- Settles O36: a word of no row is illegal, and both readings answer an illegal word alike. -/
theorem illegalWordIsAnswered : Obligations.IllegalWordIsAnswered := by
  intro s w rest hq hm hw
  obtain ⟨why, hd⟩ := CmdWord.wellFormed_eq_false_iff.1 hw
  have hs : step s = .next (State.raise .illegal 0#32 (State.takeMove rest s)) := by
    obtain hm | hm := hm
    · exact step_illegal hm hq hd
    · exact step_stepwise_illegal hm hq hd
  exact ⟨_, hs, ⟨rfl, rfl, rfl⟩, ⟨rfl, fun _ => rfl, rfl, rfl⟩⟩

/-- An internal step of a busy block leaves it busy without a response, or returns to `IDLE` with one (R20, R57). -/
theorem microStep_responds {s : State} (hq : s.seq ≠ .idle) :
    ((microStep s).seq ≠ .idle ∧ (microStep s).responses = s.responses) ∨
      ((microStep s).seq = .idle ∧ ∃ r, (microStep s).responses = r :: s.responses) := by
  cases microStep_cases s with
  | idle h _ => exact absurd h hq
  | entry _ _ _ h => rw [h]; exact .inl ⟨Seq.noConfusion, rfl⟩
  | group _ _ _ _ _ _ _ h => rw [h]; exact .inl ⟨Seq.noConfusion, rfl⟩
  | built _ _ _ h => rw [h]; exact .inr ⟨rfl, _, rfl⟩
  | bus _ _ _ _ _ _ h => rw [h]; exact .inr ⟨rfl, _, rfl⟩
  | sum _ _ _ _ _ h => rw [h]; exact .inr ⟨rfl, _, rfl⟩

/-- Settles O42: without a reset the step of a busy block is an internal one. -/
theorem busyBlockIsNotReady : Obligations.BusyBlockIsNotReady := by
  intro s hq hr
  exact ⟨microStep s, step_busy hr hq, microStep_moves s, microStep_mem s, microStep_responds hq⟩

end Sys2Proof.Machine
end

section
/-!
PROOF. The assembler reads the text form back (30_encoding.md R58; O10): a written number gives its digits back, and a
written line gives its tokens back.
-/

namespace Sys2Proof.Machine

/-! ## Numbers -/

theorem hexDigit_hexChar {d : Nat} (h : d < 16) : hexDigit (hexChar d) = some d := by
  revert d
  decide

theorem digitsFrom_cons {radix acc d : Nat} {digit : Char → Option Nat} {c : Char} (h : digit c = some d)
    (cs : List Char) : digitsFrom radix digit acc (c :: cs) = digitsFrom radix digit (acc * radix + d) cs := by
  simp only [digitsFrom, h]

/-- Reading written digits puts them behind the value read so far. -/
theorem digitsFrom_hexText (acc k n : Nat) (tail : List Char) :
    digitsFrom 16 hexDigit acc (hexText k n tail) = digitsFrom 16 hexDigit (acc * 16 ^ k + n % 16 ^ k) tail := by
  induction k generalizing n tail with
  | zero => simp [hexText, Nat.mod_one]
  | succ k ih =>
    have hvalue : (acc * 16 ^ k + n / 16 % 16 ^ k) * 16 + n % 16 = acc * 16 ^ (k + 1) + n % 16 ^ (k + 1) := by
      rw [Nat.pow_succ', Nat.mod_mul]
      ring
    rw [hexText, ih, digitsFrom_cons (hexDigit_hexChar (Nat.mod_lt n (by decide))), hvalue]

/-- Enough digits give the number back. -/
theorem digitsFrom_hexText_of_lt {k n : Nat} (h : n < 16 ^ k) :
    digitsFrom 16 hexDigit 0 (hexText k n []) = some n := by
  rw [digitsFrom_hexText, Nat.zero_mul, Nat.zero_add, Nat.mod_eq_of_lt h]
  rfl

@[simp] theorem length_hexText (k n : Nat) (tail : List Char) : (hexText k n tail).length = k + tail.length := by
  induction k generalizing n tail with
  | zero => rw [hexText, Nat.zero_add]
  | succ k ih => rw [hexText, ih, List.length_cons]; omega

/-- A number written with `0x` is its digits. -/
theorem number_hex {ds : List Char} (h : ds ≠ []) : number ('0' :: 'x' :: ds) = digitsFrom 16 hexDigit 0 ds := by
  cases ds with
  | nil => exact absurd rfl h
  | cons _ _ => rfl

theorem number_u32Text (v : U32) : number (u32Text v) = some v.toNat := by
  have hne : hexText 8 v.toNat [] ≠ [] := List.ne_nil_of_length_pos (by simp)
  rw [u32Text, number_hex hne, digitsFrom_hexText_of_lt v.isLt]

theorem numberU32_u32Text (v : U32) : numberU32 (u32Text v) = some v := by
  simp [numberU32, number_u32Text, v.isLt]

theorem numberIdx_u32Text (x : Byte) : numberIdx (u32Text (x.setWidth 32)) = some x := by
  have hx : x.toNat < 256 := x.isLt
  have hv : (x.setWidth 32).toNat = x.toNat := by rw [BitVec.toNat_setWidth, Nat.mod_eq_of_lt (by omega)]
  simp [numberIdx, number_u32Text, hv, hx]

/-! ## Tokens -/

/-- A character that is part of a token: no comment, no white space, no comma (R58, log entry 15). -/
def isTokenChar (c : Char) : Bool := c ≠ ';' && c ≠ ' ' && c ≠ '\t' && c ≠ ','

theorem tokens_tokenChar {c : Char} (h : isTokenChar c = true) (cur cs : List Char) :
    tokens cur (c :: cs) = tokens (c :: cur) cs := by
  simp only [isTokenChar, Bool.and_eq_true, decide_eq_true_eq] at h
  obtain ⟨⟨⟨hsemi, hspace⟩, htab⟩, hcomma⟩ := h
  simp [tokens, hsemi, hspace, htab, hcomma]

/-- The characters of a token are read into it. -/
theorem tokens_append {word : List Char} (h : ∀ c ∈ word, isTokenChar c = true) (cur rest : List Char) :
    tokens cur (word ++ rest) = tokens (word.reverse ++ cur) rest := by
  induction word generalizing cur with
  | nil => rfl
  | cons c cs ih =>
    obtain ⟨hc, hcs⟩ := List.forall_mem_cons.1 h
    rw [List.cons_append, tokens_tokenChar hc, ih hcs, List.reverse_cons, List.append_assoc, List.singleton_append]

@[simp] theorem pushToken_nil (ts : List (List Char)) : pushToken [] ts = ts := rfl

theorem pushToken_reverse {word : List Char} (h : word ≠ []) (ts : List (List Char)) :
    pushToken word.reverse ts = word :: ts := by
  simp [pushToken, h]

/-- A text that is read as one token wherever it stands. -/
structure IsToken (word : List Char) : Prop where
  ne_nil : word ≠ []
  chars : ∀ c ∈ word, isTokenChar c = true

theorem IsToken.tokens_end {word : List Char} (h : IsToken word) : tokens [] word = [word] := by
  have happ := tokens_append h.chars [] []
  rw [List.append_nil, List.append_nil] at happ
  rw [happ, tokens, pushToken_reverse h.ne_nil]

theorem IsToken.tokens_space {word : List Char} (h : IsToken word) (rest : List Char) :
    tokens [] (word ++ ' ' :: rest) = word :: tokens [] rest := by
  rw [tokens_append h.chars, List.append_nil]
  simp [tokens, pushToken_reverse h.ne_nil]

theorem IsToken.tokens_comma {word : List Char} (h : IsToken word) (rest : List Char) :
    tokens [] (word ++ ',' :: ' ' :: rest) = word :: [','] :: tokens [] rest := by
  rw [tokens_append h.chars, List.append_nil]
  simp [tokens, pushToken_reverse h.ne_nil]

theorem isTokenChar_hexChar {d : Nat} (h : d < 16) : isTokenChar (hexChar d) = true := by
  revert d
  decide

theorem isTokenChar_of_mem_hexText {k n : Nat} {tail : List Char} (h : ∀ c ∈ tail, isTokenChar c = true) :
    ∀ c ∈ hexText k n tail, isTokenChar c = true := by
  induction k generalizing n tail with
  | zero => exact h
  | succ k ih => exact ih (List.forall_mem_cons.2 ⟨isTokenChar_hexChar (Nat.mod_lt n (by decide)), h⟩)

theorem isToken_u32Text (v : U32) : IsToken (u32Text v) where
  ne_nil := List.cons_ne_nil _ _
  chars := List.forall_mem_cons.2 ⟨rfl, List.forall_mem_cons.2 ⟨rfl, isTokenChar_of_mem_hexText (by simp)⟩⟩

theorem isToken_cmdText (w : CmdWord) : IsToken (cmdText w) where
  ne_nil := List.ne_nil_of_length_pos (by simp [cmdText])
  chars := isTokenChar_of_mem_hexText (by simp)

theorem isToken_mnemonicBuild : IsToken mnemonicBuild := ⟨List.cons_ne_nil _ _, by simp [mnemonicBuild, isTokenChar]⟩
theorem isToken_mnemonicCalc : IsToken mnemonicCalc := ⟨List.cons_ne_nil _ _, by simp [mnemonicCalc, isTokenChar]⟩
theorem isToken_mnemonicRdtbl : IsToken mnemonicRdtbl := ⟨List.cons_ne_nil _ _, by simp [mnemonicRdtbl, isTokenChar]⟩
theorem isToken_directiveCmd : IsToken directiveCmd := ⟨List.cons_ne_nil _ _, by simp [directiveCmd, isTokenChar]⟩

/-! ## Lines -/

/-- A line with tokens is the command that they are. -/
theorem assembleLine_of_tokens {line m : List Char} {ops : List (List Char)} {w : CmdWord}
    (ht : tokens [] line = m :: ops) (hw : assembleTokens (m :: ops) = some w) : assembleLine line = some [w] := by
  simp [assembleLine, ht, hw]

theorem assembleTokens_build (ops : List (List Char)) :
    assembleTokens (mnemonicBuild :: ops) = assembleBuild ops := rfl
theorem assembleTokens_calc (ops : List (List Char)) :
    assembleTokens (mnemonicCalc :: ops) = assembleCalc ops := rfl
theorem assembleTokens_rdtbl (ops : List (List Char)) :
    assembleTokens (mnemonicRdtbl :: ops) = assembleRdtbl ops := rfl
theorem assembleTokens_cmd (ops : List (List Char)) :
    assembleTokens (directiveCmd :: ops) = assembleCmd ops := rfl

/-- The text of a command is read as its word. -/
theorem assembleLine_instrText (i : Instr) : assembleLine (instrText i) = some [encode i] := by
  cases i with
  | build p =>
    refine assembleLine_of_tokens (m := mnemonicBuild) (ops := [u32Text p]) ?_ ?_
    · rw [instrText, isToken_mnemonicBuild.tokens_space, (isToken_u32Text p).tokens_end]
    · simp [assembleTokens_build, assembleBuild, numberU32_u32Text]
  | calculate b l =>
    refine assembleLine_of_tokens (m := mnemonicCalc) (ops := [u32Text b, [','], u32Text l]) ?_ ?_
    · rw [instrText, isToken_mnemonicCalc.tokens_space, (isToken_u32Text b).tokens_comma,
        (isToken_u32Text l).tokens_end]
    · simp [assembleTokens_calc, assembleCalc, numberU32_u32Text]
  | rdtbl x =>
    refine assembleLine_of_tokens (m := mnemonicRdtbl) (ops := [u32Text (x.setWidth 32)]) ?_ ?_
    · rw [instrText, isToken_mnemonicRdtbl.tokens_space, (isToken_u32Text _).tokens_end]
    · simp [assembleTokens_rdtbl, assembleRdtbl, numberIdx_u32Text]

/-- The digits of a word after `.cmd` are read as the word. -/
theorem assembleLine_cmdText (w : CmdWord) : assembleLine (directiveCmd ++ ' ' :: cmdText w) = some [w] := by
  have hvalue : digitsFrom 16 hexDigit 0 (cmdText w) = some w.toNat := digitsFrom_hexText_of_lt w.isLt
  have hlength : (cmdText w).length = 18 := length_hexText 18 w.toNat []
  refine assembleLine_of_tokens (m := directiveCmd) (ops := [cmdText w]) ?_ ?_
  · rw [isToken_directiveCmd.tokens_space, (isToken_cmdText w).tokens_end]
  · simp [assembleTokens_cmd, assembleCmd, hlength, hvalue]

/-- Settles O10: the text of a command for the first part, the 18 digits of a word for the second. -/
theorem assemblerReadsCommandText : Obligations.AssemblerReadsCommandText :=
  ⟨assembleLine_instrText, assembleLine_cmdText⟩

end Sys2Proof.Machine
end

section
/-!
PROOF. The table and its construction (40_table_build.md R71 to R76; O11 to O14, O21, O23, O25, O53): the entries as
functions of polynomial and byte, then `BUILD` and `RDTBL`, then the internal steps of `BUILD`.
-/

namespace Sys2Proof.Machine

/-! ## Where the entry is truncated (R71) -/

theorem ofNat_shiftLeft (c k : Nat) : BitVec.ofNat 32 (c <<< k) = BitVec.ofNat 32 c <<< k := by
  apply BitVec.eq_of_toNat_eq
  simp [Nat.shiftLeft_eq]

/-- An iteration on unbounded integers, truncated, is the iteration on the truncated word: the test and the low 32 bits
of the result see bits 31:0 only. -/
theorem shiftStep_ofNat (p : U32) (c : Nat) :
    shiftStep p (BitVec.ofNat 32 c) = BitVec.ofNat 32 (shiftStepNat p.toNat c) := by
  have htest : (BitVec.ofNat 32 c).getLsbD 31 = c.testBit 31 := BitVec.getLsbD_ofNat 32 c 31
  rw [shiftStep, shiftStepNat, htest]
  split
  · rw [BitVec.ofNat_xor, ofNat_shiftLeft, BitVec.ofNat_toNat, BitVec.setWidth_eq]
  · rw [ofNat_shiftLeft]

theorem shiftSteps_ofNat (p : U32) (n c : Nat) :
    shiftSteps p n (BitVec.ofNat 32 c) = BitVec.ofNat 32 (shiftStepsNat p.toNat n c) := by
  induction n generalizing c with
  | zero => rfl
  | succ n ih => rw [shiftSteps, shiftStep_ofNat, ih, shiftStepsNat]

theorem topOctet_eq_ofNat (i : Byte) : topOctet i = BitVec.ofNat 32 (i.toNat <<< 24) := by
  rw [ofNat_shiftLeft, topOctet, BitVec.ofNat_toNat]

/-- Settles O11: the truncation goes through each iteration, so it can wait until the end. -/
theorem truncationPointDoesNotMatter : Obligations.TruncationPointDoesNotMatter := by
  intro p i
  rw [tableEntry, topOctet_eq_ofNat, shiftSteps_ofNat, BitVec.toNat_ofNat, tableEntryNat]

/-! ## Linearity (R74 law 4) -/

theorem topOctet_xor (i j : Byte) : topOctet (i ^^^ j) = topOctet i ^^^ topOctet j := by
  rw [topOctet, BitVec.setWidth_xor, BitVec.shiftLeft_xor_distrib, topOctet, topOctet]

/-- A function on bytes that is linear over exclusive-or. -/
def XorLinear (f : Byte → U32) : Prop := ∀ i j, f (i ^^^ j) = f i ^^^ f j

/-- Placing the byte and each iteration are linear. -/
theorem xorLinear_tableEntry (p : U32) : XorLinear (tableEntry p) := by
  intro i j
  simp only [tableEntry, topOctet_xor, shiftSteps_xor]

/-- Settles O13: `xorLinear_tableEntry`. -/
theorem tableEntryIsLinear : Obligations.TableEntryIsLinear := xorLinear_tableEntry

/-! ## The first entries (R74 laws 1 to 3) -/

/-- The last iteration taken out at the end. -/
theorem shiftSteps_succ_last (p : U32) (n : Nat) (c : U32) :
    shiftSteps p (n + 1) c = shiftStep p (shiftSteps p n c) := by
  induction n generalizing c with
  | zero => rfl
  | succ n ih => rw [shiftSteps, ih, shiftSteps]

/-- No bit is ever set. -/
theorem tableEntry_zero (p : U32) : tableEntry p 0#8 = 0#32 := by
  have hclear : ∀ i, 32 - buildIter ≤ i → (topOctet 0#8).getLsbD i = false := fun i _ => by simp [topOctet]
  rw [tableEntry, shiftSteps_of_clear p hclear (by decide)]
  decide

/-- Seven iterations shift the byte's bit to the top, and the eighth puts `p` in its place. -/
theorem tableEntry_one (p : U32) : tableEntry p 1#8 = p := by
  have hclear : ∀ i, 32 - 7 ≤ i → (topOctet 1#8).getLsbD i = false := fun i hi => by
    rw [show topOctet 1#8 = BitVec.twoPow 32 24 by decide, BitVec.getLsbD_twoPow]
    simp [show 24 ≠ i by omega]
  have hseven : shiftSteps p 7 (topOctet 1#8) = 0x80000000#32 := shiftSteps_of_clear p hclear (by decide)
  rw [tableEntry, buildIter, shiftSteps_succ_last, hseven, shiftStep_eq_xor]
  simp

/-- The byte 2 is the byte 1 an iteration later. -/
theorem tableEntry_two (p : U32) : tableEntry p 2#8 = shiftStep p (tableEntry p 1#8) := by
  have hdouble : topOctet 2#8 = shiftStep p (topOctet 1#8) := rfl
  rw [tableEntry, hdouble, tableEntry, ← shiftSteps_succ_last, shiftSteps]

/-- Settles O12: entry 2 is one iteration more on entry 1. -/
theorem firstTableEntries : Obligations.FirstTableEntries := by
  intro p
  exact ⟨tableEntry_zero p, tableEntry_one p, by rw [tableEntry_two, tableEntry_one, shiftStep_eq_xor]⟩

/-! ## Degenerate polynomials (R74 law 5) -/

theorem XorLinear.map_zero {f : Byte → U32} (hf : XorLinear f) : f 0#8 = 0#32 := by
  have h := hf 0#8 0#8
  rwa [BitVec.xor_self, BitVec.xor_self] at h

/-- Two linear functions that agree on the bytes with one bit set agree on every byte whose bits from `n` on are
clear: the highest bit is split off. -/
theorem XorLinear.eq_of_clear {f g : Byte → U32} (hf : XorLinear f) (hg : XorLinear g)
    (hbit : ∀ k, k < 8 → f (BitVec.twoPow 8 k) = g (BitVec.twoPow 8 k)) {n : Nat} (hn : n ≤ 8) {i : Byte}
    (hclear : ∀ k, n ≤ k → i.getLsbD k = false) : f i = g i := by
  induction n generalizing i with
  | zero =>
    have hi : i = 0#8 := BitVec.eq_of_getLsbD_eq fun k _ => by simp [hclear k (Nat.zero_le k)]
    rw [hi, hf.map_zero, hg.map_zero]
  | succ n ih =>
    cases htop : i.getLsbD n with
    | false =>
      refine ih (by omega) fun k hk => ?_
      obtain rfl | hlt := Nat.eq_or_lt_of_le hk
      · exact htop
      · exact hclear k hlt
    | true =>
      have hrest : f (i ^^^ BitVec.twoPow 8 n) = g (i ^^^ BitVec.twoPow 8 n) := by
        refine ih (by omega) fun k hk => ?_
        obtain rfl | hlt := Nat.eq_or_lt_of_le hk
        · simp [htop, show n < 8 by omega]
        · simp [hclear k hlt, show n ≠ k by omega]
      rwa [hf, hg, hbit n hn, BitVec.xor_left_inj] at hrest

theorem XorLinear.ext {f g : Byte → U32} (hf : XorLinear f) (hg : XorLinear g)
    (hbit : ∀ k, k < 8 → f (BitVec.twoPow 8 k) = g (BitVec.twoPow 8 k)) (i : Byte) : f i = g i :=
  hf.eq_of_clear hg hbit (Nat.le_refl 8) fun k hk => BitVec.getLsbD_of_ge i k hk

theorem xorLinear_zero : XorLinear fun _ => 0#32 := fun _ _ => BitVec.xor_self.symm

theorem xorLinear_setWidth : XorLinear (BitVec.setWidth 32) := fun _ _ => BitVec.setWidth_xor

/-- The exclusive-or of the bits of a byte: whether the number of its one bits is odd. -/
def byteParity (i : Byte) : Bool := ((List.range 8).map fun k => i.getLsbD k).foldl xor false

theorem foldl_xor_getLsbD_xor (i j : Byte) (l : List Nat) (a b : Bool) :
    (l.map fun k => (i ^^^ j).getLsbD k).foldl xor (a ^^ b) =
      ((l.map fun k => i.getLsbD k).foldl xor a ^^ (l.map fun k => j.getLsbD k).foldl xor b) := by
  induction l generalizing a b with
  | nil => rfl
  | cons k l ih =>
    have hstep : ((a ^^ b) ^^ (i ^^^ j).getLsbD k) = ((a ^^ i.getLsbD k) ^^ (b ^^ j.getLsbD k)) := by
      rw [BitVec.getLsbD_xor, Bool.xor_assoc, Bool.xor_assoc, Bool.xor_left_comm b]
    simp only [List.map_cons, List.foldl_cons, hstep, ih]

theorem byteParity_xor (i j : Byte) : byteParity (i ^^^ j) = (byteParity i ^^ byteParity j) :=
  foldl_xor_getLsbD_xor i j (List.range 8) false false

theorem xorLinear_parity (v : U32) : XorLinear fun i => if byteParity i then v else 0#32 := by
  intro i j
  simp only [byteParity_xor]
  cases byteParity i <;> cases byteParity j <;> simp

/-- Settles O14: both sides are linear in the byte, so the eight bytes with one bit set decide. -/
theorem degeneratePolynomials : Obligations.DegeneratePolynomials := by
  refine fun i => ⟨?_, ?_, ?_⟩
  · exact (xorLinear_tableEntry 0#32).ext xorLinear_zero (by decide) i
  · exact (xorLinear_tableEntry 1#32).ext xorLinear_setWidth (by decide) i
  · exact (xorLinear_tableEntry 0x80000000#32).ext (xorLinear_parity 0x80000000#32) (by decide) i

/-! ## `BUILD` and `RDTBL` (R73, R76) -/

/-- `BUILD` at a block without a table. -/
theorem exec_build {s : State} (p : U32) (htv : s.tv = false) :
    exec (.build p) s =
      .next (State.respondOk 0#32 (State.loseCrc (State.setTableValid (State.writeTable p s)))) := by
  obtain ⟨h, _⟩ | ⟨_, h⟩ := @execBuild_cases p s
  · simp [htv] at h
  · exact h

/-- `RDTBL` at a block with a table. -/
theorem exec_rdtbl {s : State} (i : Byte) (htv : s.tv = true) :
    exec (.rdtbl i) s = .next (State.respondOk (Table.get s.table i) (State.loseCrc s)) := by
  obtain ⟨h, _⟩ | ⟨_, h⟩ := @execRdtbl_cases i s
  · simp [htv] at h
  · exact h

/-- Settles O21: the end of `BUILD`, field by field. -/
theorem buildConstructsTheTable : Obligations.BuildConstructsTheTable :=
  fun p _ htv => ⟨_, exec_build p htv, rfl, rfl, fun i => Table.get_ofFn (tableEntry p) i, rfl, fun _ => rfl, rfl, rfl⟩

/-- Settles O23: the end of `RDTBL`, field by field. -/
theorem rdtblReturnsTheEntry : Obligations.RdtblReturnsTheEntry :=
  fun i _ htv => ⟨_, exec_rdtbl i htv, ⟨rfl, rfl, rfl⟩, rfl, fun _ => rfl, rfl, rfl⟩

/-- Settles O25: the reads answer the entries 0 and 1 of the table that `BUILD` wrote. -/
theorem buildThenReadBackPolynomial : Obligations.BuildThenReadBackPolynomial := by
  intro p s htv
  refine ⟨_, _, _, exec_build p htv, exec_rdtbl 0#8 rfl, exec_rdtbl 1#8 rfl, ?_, ⟨rfl, rfl, rfl⟩⟩
  simp [tableEntry_zero, tableEntry_one]

/-! ## The internal steps of `BUILD` (R75) -/

/-- The table `t` with its first `n` entries written by `f`. -/
def Table.writeFirst (f : Byte → U32) (n : Nat) (t : Table) : Table :=
  Table.ofFn fun j => if j.toNat < n then f j else Table.get t j

@[simp] theorem Table.get_writeFirst (f : Byte → U32) (n : Nat) (t : Table) (j : Byte) :
    Table.get (Table.writeFirst f n t) j = if j.toNat < n then f j else Table.get t j :=
  Table.get_ofFn _ j

theorem Table.writeFirst_zero (f : Byte → U32) (t : Table) : Table.writeFirst f 0 t = t :=
  Table.ext_get fun _ => by simp

/-- Writing entry `n` makes one entry more, and leaves those behind it. -/
theorem Table.set_writeFirst (f : Byte → U32) {n : Nat} (t : Table) (hn : n < 256) :
    Table.set (Table.writeFirst f n t) (BitVec.ofNat 8 n) (f (BitVec.ofNat 8 n)) = Table.writeFirst f (n + 1) t := by
  refine Table.ext_get fun j => ?_
  by_cases hj : j.toNat < n + 1
  · rw [Table.get_set_below (fun k hk => by rw [Table.get_writeFirst, if_pos hk]) hj, Table.get_writeFirst, if_pos hj]
  · have hne : BitVec.ofNat 8 n ≠ j := fun e => hj (by rw [← e, BitVec.toNat_ofNat]; omega)
    rw [Table.get_set_other _ _ hne, Table.get_writeFirst, Table.get_writeFirst, if_neg hj, if_neg (by omega)]

/-- A `BUILD` of the polynomial in `POLY` that has written its first `n` entries over those of `s`. -/
def State.partlyBuilt (n : Nat) (s : State) : State :=
  { s with table := Table.writeFirst (tableEntry s.poly) n s.table, seq := .building n }

theorem State.partlyBuilt_zero {s : State} (hq : s.seq = .building 0) : State.partlyBuilt 0 s = s := by
  rw [State.partlyBuilt, Table.writeFirst_zero, ← hq]

/-- An internal step writes the next entry and no other. -/
theorem microStep_partlyBuilt {n : Nat} (s : State) (hn : n < 256) :
    microStep (State.partlyBuilt n s) = State.partlyBuilt (n + 1) s := by
  rw [microStep_building (s := State.partlyBuilt n s) rfl hn, State.partlyBuilt, State.partlyBuilt,
    ← Table.set_writeFirst _ _ hn]

theorem microSteps_succ_last (n : Nat) (s : State) : microSteps (n + 1) s = microStep (microSteps n s) := by
  induction n generalizing s with
  | zero => rfl
  | succ n ih => rw [microSteps_succ, ih, microSteps_succ]

/-- The first 256 internal steps of a `BUILD` write one entry each. -/
theorem microSteps_eq_partlyBuilt {n : Nat} {s : State} (hq : s.seq = .building 0) (hn : n ≤ 256) :
    microSteps n s = State.partlyBuilt n s := by
  induction n with
  | zero => exact (State.partlyBuilt_zero hq).symm
  | succ n ih => rw [microSteps_succ_last, ih (by omega), microStep_partlyBuilt s hn]

/-- Acceptance of a `BUILD` at a block without a table (R75). -/
theorem accept_build {s : State} (p : U32) (htv : s.tv = false) :
    accept (.build p) s = { s with poly := p, seq := .building 0 } := by
  simp [accept, acceptBuild, htv]

/-- Settles O53: `State.partlyBuilt` is the state after `n` of the steps, and the last step ends as every command's
does. -/
theorem smallStepBuildRefinesBuild : Obligations.SmallStepBuildRefinesBuild := by
  intro p s _ htv
  refine ⟨fun n hn => ?_, exec_eq_microSteps (.build p) s⟩
  rw [accept_build p htv, microSteps_eq_partlyBuilt rfl hn]
  exact ⟨rfl, htv, rfl, fun j => Table.get_writeFirst _ n _ j, rfl⟩

end Sys2Proof.Machine
end

section
/-!
PROOF. The calculation functions and `CALC` (41_calculate.md R90 to R102; O15 to O20, O26, O28, O29, O33, O54): the
group step and its laws, the loop of R92 over a byte list, then the command, whose group loop over a mapped buffer is
that loop.
-/

namespace Sys2Proof.Machine

/-! ## The word form of a group step (R97) -/

@[simp] theorem Group.extract_b3_word (g : Group) : (Group.word g).extractLsb' 24 8 = g.b3 := by
  rw [Group.word, BitVec.extractLsb'_append_eq_of_le (by decide), BitVec.extractLsb'_append_eq_of_le (by decide)]
  exact BitVec.extractLsb'_append_eq_left

@[simp] theorem Group.extract_b2_word (g : Group) : (Group.word g).extractLsb' 16 8 = g.b2 := by
  rw [Group.word, BitVec.extractLsb'_append_eq_of_le (by decide), BitVec.extractLsb'_append_eq_of_le (by decide)]
  exact BitVec.extractLsb'_append_eq_right

@[simp] theorem Group.extract_b1_word (g : Group) : (Group.word g).extractLsb' 8 8 = g.b1 := by
  rw [Group.word, BitVec.extractLsb'_append_eq_of_le (by decide)]
  exact BitVec.extractLsb'_append_eq_right

@[simp] theorem Group.extract_b0_word (g : Group) : (Group.word g).extractLsb' 0 8 = g.b0 :=
  BitVec.extractLsb'_append_eq_right

theorem groupStep_eq_groupStepWord (T : Table) (c : U32) (g : Group) :
    groupStep T c g = groupStepWord T c (Group.word g) := by
  simp only [groupStepWord, groupStep, Group.extract_b3_word, Group.extract_b2_word, Group.extract_b1_word,
    Group.extract_b0_word]

/-- Settles O16: the octets of the little-endian word are the bytes of the group. -/
theorem wordFormOfGroupStep : Obligations.WordFormOfGroupStep := groupStep_eq_groupStepWord

/-! ## Tables whose entry 0 is 0 (R102) -/

theorem extractLsb'_shiftLeft_octet (c : U32) {k : Nat} (hk : k ≤ 24) :
    (c <<< k).extractLsb' 24 8 = c.extractLsb' (24 - k) 8 := by
  apply BitVec.eq_of_getLsbD_eq
  intro i hi
  simp only [BitVec.getLsbD_extractLsb', BitVec.getLsbD_shiftLeft, hi, show 24 + i < 32 by omega,
    show ¬ 24 + i < k by omega, show 24 + i - k = 24 - k + i by omega, decide_true, decide_false, Bool.not_false,
    Bool.true_and]

/-- The index is the top octet of the accumulator exclusive-or the byte (R90). -/
theorem updIndex_eq (c : U32) (b : Byte) : updIndex c b = c.extractLsb' 24 8 ^^^ b := rfl

section
variable {T : Table} (h0 : Table.get T 0#8 = 0#32)
include h0

/-- The top octet as the byte selects entry 0, so only the shift is left. -/
theorem upd_topOctet (c : U32) : upd T c (c.extractLsb' 24 8) = c <<< 8 := by
  rw [upd, updIndex_eq, BitVec.xor_self, h0, BitVec.xor_zero]

/-- A group whose word is the accumulator shifts it out octet by octet. -/
theorem groupStep_word_self (g : Group) : groupStep T (Group.word g) g = 0#32 := by
  have hshift : ∀ (c : U32) (k : Nat), k ≤ 24 → upd T (c <<< k) (c.extractLsb' (24 - k) 8) = c <<< (k + 8) :=
    fun c k hk => by rw [← extractLsb'_shiftLeft_octet c hk, upd_topOctet h0, ← BitVec.shiftLeft_add]
  rw [groupStep_eq_groupStepWord, groupStepWord, upd_topOctet h0, hshift _ 8 (by decide), hshift _ 16 (by decide),
    hshift _ 24 (by decide)]
  exact BitVec.shiftLeft_eq_zero (by decide)

/-- Four FF bytes are the word `INIT`. -/
theorem groupStep_init_ones : groupStep T initCrc ⟨0xFF#8, 0xFF#8, 0xFF#8, 0xFF#8⟩ = 0#32 :=
  groupStep_word_self h0 ⟨0xFF#8, 0xFF#8, 0xFF#8, 0xFF#8⟩

theorem calcBytes_leadingOnes (x : List Byte) :
    calcBytes T (0xFF#8 :: 0xFF#8 :: 0xFF#8 :: 0xFF#8 :: x) = foldGroups T 0#32 x := by
  rw [calcBytes, foldGroups, groupStep_init_ones h0]

end

/-- Settles O18: FF FF FF FF is the word of `INIT`, and 00 00 00 00 is the word of the 0 that it leaves. -/
theorem lawsOfTablesWithZeroFirstEntry : Obligations.LawsOfTablesWithZeroFirstEntry := by
  intro T h0
  have hzero : groupStep T 0#32 ⟨0#8, 0#8, 0#8, 0#8⟩ = 0#32 := groupStep_word_self h0 ⟨0#8, 0#8, 0#8, 0#8⟩
  refine ⟨upd_topOctet h0, ?_, upd_topOctet h0 0#32, ?_, calcBytes_leadingOnes h0⟩
  · rw [calcBytes_leadingOnes h0, foldGroups]
  · rw [calcBytes_leadingOnes h0, foldGroups, hzero, foldGroups]

/-! ## Built tables (R98, R102) -/

/-- An update by a linear table is linear in accumulator and byte together. -/
theorem upd_xor {T : Table} (hT : XorLinear (Table.get T)) (c d : U32) (a b : Byte) :
    upd T (c ^^^ d) (a ^^^ b) = upd T c a ^^^ upd T d b := by
  have hindex : updIndex (c ^^^ d) (a ^^^ b) = updIndex c a ^^^ updIndex d b := by
    simp only [updIndex, BitVec.ushiftRight_xor_distrib, BitVec.setWidth_xor]
    ac_rfl
  rw [upd, hindex, hT, BitVec.shiftLeft_xor_distrib, upd, upd]
  ac_rfl

theorem groupStep_xor {T : Table} (hT : XorLinear (Table.get T)) (c d : U32) (g h : Group) :
    groupStep T (c ^^^ d) ⟨g.b0 ^^^ h.b0, g.b1 ^^^ h.b1, g.b2 ^^^ h.b2, g.b3 ^^^ h.b3⟩ =
      groupStep T c g ^^^ groupStep T d h := by
  simp only [groupStep, upd_xor hT]

/-- Complementing the group and the accumulator 0 adds the step of `INIT` by FF FF FF FF, which is 0. -/
theorem groupStep_init_not {T : Table} (hT : XorLinear (Table.get T)) (g : Group) :
    groupStep T initCrc ⟨~~~g.b0, ~~~g.b1, ~~~g.b2, ~~~g.b3⟩ = groupStep T 0#32 g := by
  have hnot : ∀ b : Byte, b ^^^ 0xFF#8 = ~~~b := fun _ => BitVec.xor_allOnes
  have hstep := groupStep_xor hT 0#32 initCrc g ⟨0xFF#8, 0xFF#8, 0xFF#8, 0xFF#8⟩
  simpa only [hnot, BitVec.zero_xor, groupStep_init_ones hT.map_zero, BitVec.xor_zero] using hstep

/-- Settles O19: after the leading FF bytes the loop is at 0, and there a group acts as its complement does at `INIT`. -/
theorem leadingOnesComplementTheFirstGroup : Obligations.LeadingOnesComplementTheFirstGroup := by
  intro p T hT b0 b1 b2 b3 x
  have hlinear : XorLinear (Table.get T) := by
    rw [show Table.get T = tableEntry p from funext hT]
    exact xorLinear_tableEntry p
  rw [calcBytes_leadingOnes hlinear.map_zero, calcBytes, foldGroups, foldGroups,
    groupStep_init_not hlinear ⟨b0, b1, b2, b3⟩]

/-! ## The loop of R92 over a byte list -/

/-- The loop has a value exactly when no byte is left over (R92, R94). -/
theorem exists_foldGroups_eq_some_iff (T : Table) (c : U32) (buf : List Byte) :
    (∃ d, foldGroups T c buf = some d) ↔ buf.length % 4 = 0 := by
  fun_induction foldGroups T c buf with
  | case1 c => simp
  | case2 c b0 b1 b2 b3 rest ih => simpa only [List.length_cons, Nat.add_assoc, Nat.add_mod_right] using ih
  | case3 buf c hnil hgroup =>
    match buf, hnil, hgroup with
    | [], hnil, _ => exact absurd rfl hnil
    | [_], _, _ | [_, _], _, _ | [_, _, _], _, _ => simp
    | _ :: _ :: _ :: _ :: _, _, hgroup => exact absurd rfl (hgroup _ _ _ _ _)

/-- Settles O15: `CalcBytes` is the loop from `INIT`. -/
theorem calcBytesIsDefinedOnWholeGroups : Obligations.CalcBytesIsDefinedOnWholeGroups :=
  fun T buf => exists_foldGroups_eq_some_iff T initCrc buf

/-- By a built table, a loop with a value is the shift-register CRC over the group-reversed bytes (R98). -/
theorem foldGroups_eq_serialCrc {p : U32} {T : Table} (hT : ∀ i : Byte, Table.get T i = tableEntry p i) {c d : U32}
    {buf : List Byte} (h : foldGroups T c buf = some d) :
    ∃ stream, visitOrder buf = some stream ∧ d = serialCrc p c stream := by
  fun_induction foldGroups T c buf with
  | case1 c => exact ⟨[], rfl, (Option.some.inj h).symm⟩
  | case2 c b0 b1 b2 b3 rest ih =>
    obtain ⟨stream, hs, rfl⟩ := ih h
    exact ⟨b3 :: b2 :: b1 :: b0 :: stream, by simp [visitOrder, hs], (serialCrc_group hT c ⟨b0, b1, b2, b3⟩ _).symm⟩
  | case3 => cases h

/-- Settles O17: the update is `upd_eq_updSerial`, and whole groups give the loop a value. -/
theorem calcBytesIsTheBitSerialCrc : Obligations.CalcBytesIsTheBitSerialCrc := by
  refine fun p T hT => ⟨upd_eq_updSerial hT, fun buf hlen => ?_⟩
  obtain ⟨d, hd⟩ := (exists_foldGroups_eq_some_iff T initCrc buf).2 hlen
  obtain ⟨stream, hs, rfl⟩ := foldGroups_eq_serialCrc hT hd
  exact ⟨stream, hs, hd⟩

/-- By the all-zero table a group shifts the whole accumulator out (R102 law 5). -/
theorem groupStep_of_zeroTable {T : Table} (hT : ∀ i : Byte, Table.get T i = 0#32) (c : U32) (g : Group) :
    groupStep T c g = 0#32 := by
  simp only [groupStep, upd, hT, BitVec.xor_zero, ← BitVec.shiftLeft_add]
  exact BitVec.shiftLeft_eq_zero (by decide)

theorem foldGroups_of_zeroTable {T : Table} (hT : ∀ i : Byte, Table.get T i = 0#32) {c d : U32} {buf : List Byte}
    (hc : buf ≠ [] ∨ c = 0#32) (h : foldGroups T c buf = some d) : d = 0#32 := by
  fun_induction foldGroups T c buf with
  | case1 c =>
    cases h
    exact hc.resolve_left fun hne => hne rfl
  | case2 c b0 b1 b2 b3 rest ih => exact ih (.inr (groupStep_of_zeroTable hT c ⟨b0, b1, b2, b3⟩)) h
  | case3 => cases h

/-- Settles O20: the loop has a value, and its first group makes it 0. -/
theorem zeroTableGivesZero : Obligations.ZeroTableGivesZero := by
  refine fun T hT => ⟨rfl, fun buf hne hlen => ?_⟩
  obtain ⟨d, hd⟩ := (exists_foldGroups_eq_some_iff T initCrc buf).2 hlen
  rw [calcBytes, hd, foldGroups_of_zeroTable hT (.inl hne) hd]

/-! ## The command (R93 to R96) -/

/-- The group loop of `CALC` over `k` mapped groups is the loop of R92 over their bytes. -/
theorem calcLoop_eq_foldGroups {T : Table} {m : Memory} {k a : Nat} {c : U32} {buf : List Byte}
    (hbuf : Memory.buffer m a (4 * k) = some buf) :
    ∃ d, foldGroups T c buf = some d ∧ calcLoop T m k a c = .sum d := by
  induction k generalizing a c buf with
  | zero =>
    cases hbuf
    exact ⟨c, rfl, rfl⟩
  | succ k ih =>
    obtain ⟨g, rest, hg, hrest, rfl⟩ := Memory.buffer_group.1 hbuf
    rw [foldGroups, calcLoop_succ_some hg]
    exact ih hrest

/-- A `CALC` whose checks pass and whose loop ends with the sum `c`: its answer and its frame. -/
theorem exec_calculate_of_sum {b l c : U32} {s : State} (hc : calcCheck b l s = none)
    (hsum : calcLoop s.table s.mem (groupCount l) (bufferAddr b 0) initCrc = .sum c) :
    ∃ t, exec (.calculate b l) s = .next t ∧ t.crc = c ∧ State.SameTable s t ∧ State.CommandFrame s t (.ok c) := by
  refine ⟨State.endCalc (.sum c) s, ?_, rfl, ⟨rfl, rfl, rfl⟩, rfl, fun _ => rfl, rfl, rfl⟩
  rw [exec, execCalc_checked hc, hsum]

/-- A `CALC` that a check refuses. -/
theorem exec_calculate_refused {b l info : U32} {e : Err} {s : State} (hc : calcCheck b l s = some (e, info)) :
    exec (.calculate b l) s = .next (State.raise e info s) := by
  obtain ⟨_, _, hc', hx⟩ | ⟨hc', _⟩ := @execCalc_cases b l s
  · cases hc.symm.trans hc'
    exact hx
  · cases hc.symm.trans hc'

/-- Settles O26: the checks pass, and the loop over the mapped buffer is that of `CalcBytes`. -/
theorem calcReturnsTheChecksum : Obligations.CalcReturnsTheChecksum := by
  intro b l s buf htv hlen hrange hbuf hread
  have hmapped : Memory.buffer s.mem (bufferAddr b 0) (4 * groupCount l) = some buf := by
    have hn : 4 * groupCount l = buf.length := by simp only [groupCount]; omega
    rw [hn]
    exact Memory.buffer_of_reads hread
  obtain ⟨c, hc, hsum⟩ := calcLoop_eq_foldGroups (T := s.table) (c := initCrc) hmapped
  obtain ⟨t, ht⟩ := exec_calculate_of_sum (calcCheck_eq_none.2 ⟨htv, lengthOk_iff.2 hlen, rangeOk_iff.2 hrange⟩) hsum
  exact ⟨c, t, hc, ht⟩

/-- Settles O28: an empty buffer passes the checks at every address and has no group. -/
theorem emptyBufferGivesAllOnes : Obligations.EmptyBufferGivesAllOnes := by
  refine ⟨fun _ => rfl, fun b s htv => ?_⟩
  have hrange : rangeOk b 0#32 = true := rangeOk_iff.2 (Nat.le_of_lt b.isLt)
  exact exec_calculate_of_sum (calcCheck_eq_none.2 ⟨htv, rfl, hrange⟩) (calcLoop_zero ..)

/-- Settles O29: the length check comes before the range check and before every read. -/
theorem calcRefusesPartialGroups : Obligations.CalcRefusesPartialGroups := by
  intro b l s htv hlen
  have hpartial : lengthOk l = false := Bool.eq_false_iff.2 fun h => hlen (lengthOk_iff.1 h)
  have hcheck : calcCheck b l s = some (.length, l) := by
    simp only [calcCheck, State.tableValid_eq, htv, hpartial]
  exact ⟨_, exec_calculate_refused hcheck, ⟨rfl, rfl, rfl⟩, rfl, fun _ => rfl, rfl, rfl⟩

/-- The checks read `TV` and the operands only. -/
theorem calcCheck_congr {s s' : State} (h : s.tv = s'.tv) (b l : U32) : calcCheck b l s = calcCheck b l s' := by
  simp only [calcCheck, State.tableValid_eq, h]

/-- The response at the end of the loop is that of the loop's end alone. -/
theorem State.endCalc_responses (e : CalcEnd) : ∃ r, ∀ s, (State.endCalc e s).responses = r :: s.responses := by
  cases e with
  | sum c => exact ⟨.ok c, fun _ => rfl⟩
  | bus a => exact ⟨.error .bus (busInfo a), fun _ => rfl⟩

/-- Settles O33: the checks agree, and so do the ends of the two group loops. -/
theorem calcDependsOnTableAndBufferOnly : Obligations.CalcDependsOnTableAndBufferOnly := by
  intro b l s s' htv htv' htable hmem
  have hcheck := calcCheck_congr (htv.trans htv'.symm) b l
  cases hc : calcCheck b l s with
  | some refusal =>
    obtain ⟨e, info⟩ := refusal
    exact ⟨_, _, _, exec_calculate_refused hc, exec_calculate_refused (hcheck ▸ hc), rfl, rfl⟩
  | none =>
    have hloop : calcLoop s'.table s'.mem (groupCount l) (bufferAddr b 0) initCrc =
        calcLoop s.table s.mem (groupCount l) (bufferAddr b 0) initCrc := by
      rw [Table.ext_get htable]
      refine (calcLoop_congr fun a hlo hhi => hmem a hlo ?_).symm
      simp only [groupCount] at hhi
      omega
    obtain ⟨r, hr⟩ := State.endCalc_responses (calcLoop s.table s.mem (groupCount l) (bufferAddr b 0) initCrc)
    exact ⟨_, _, r, execCalc_checked hc, execCalc_checked (hcheck ▸ hc), hr s, hloop ▸ hr s'⟩

/-- Settles O54: `exec_eq_microSteps` for `CALC`, whose count of internal steps is `len/4 + 1`. -/
theorem smallStepCalcRefinesCalc : Obligations.SmallStepCalcRefinesCalc :=
  fun b l s _ => exec_eq_microSteps (.calculate b l) s

end Sys2Proof.Machine
end

section
/-!
PROOF. The errors (60_exceptions.md R120 to R128; O22, O24, O30, O31, O37, O38): where the lowest failing group of a
buffer is and what the group loop of `CALC` makes of it, how each check refuses, then the order of the errors and what
an error leaves.
-/

namespace Sys2Proof.Machine

/-! ## The lowest failing group (R126) -/

/-- Every byte from `lo` up to `hi` answers (20_memory.md R30). -/
def Memory.Mapped (m : Memory) (lo hi : Nat) : Prop := ∀ a, lo ≤ a → a < hi → Memory.read m a ≠ none

/-- Group `k` of the buffer at `a` is the lowest with an unmapped byte (R126). -/
structure Memory.LowestFailure (m : Memory) (a k : Nat) : Prop where
  unmapped : ∃ j, j < 4 ∧ Memory.read m (a + 4 * k + j) = none
  below : Memory.Mapped m a (a + 4 * k)

theorem Memory.mapped_empty (m : Memory) (a : Nat) : Memory.Mapped m a a :=
  fun _ hlo hhi => absurd hhi (Nat.not_lt.2 hlo)

/-- A group read inside a mapped range answers. -/
theorem Memory.Mapped.readGroup {m : Memory} {lo hi a : Nat} (h : Memory.Mapped m lo hi) (hlo : lo ≤ a)
    (hhi : a + 4 ≤ hi) : ∃ g, Memory.readGroup m a = some g := by
  refine Option.ne_none_iff_exists'.1 fun hnone => ?_
  obtain ⟨j, hj, hread⟩ := Memory.readGroup_eq_none.1 hnone
  exact h (a + j) (by omega) (by omega) hread

/-- A buffer of `n` groups is mapped, or one of its groups is the lowest failing one. -/
theorem Memory.mapped_or_lowestFailure (m : Memory) (a n : Nat) :
    Memory.Mapped m a (a + 4 * n) ∨ ∃ k, k < n ∧ Memory.LowestFailure m a k := by
  induction n with
  | zero => exact .inl (Memory.mapped_empty m a)
  | succ n ih =>
    obtain hbelow | ⟨k, hk, hfail⟩ := ih
    · by_cases hgroup : ∃ j, j < 4 ∧ Memory.read m (a + 4 * n + j) = none
      · exact .inr ⟨n, Nat.lt_succ_self n, hgroup, hbelow⟩
      · refine .inl fun x hlo hhi hnone => ?_
        by_cases hx : x < a + 4 * n
        · exact hbelow x hlo hx hnone
        · exact hgroup ⟨x - (a + 4 * n), by omega, by rwa [Nat.add_sub_cancel' (Nat.not_lt.1 hx)]⟩
    · exact .inr ⟨k, Nat.lt_succ_of_lt hk, hfail⟩

/-! ## The group loop at a mapped buffer and at a failing group (R93) -/

/-- The loop over mapped groups ends with a sum. -/
theorem calcLoop_of_mapped (T : Table) {m : Memory} {n a : Nat} (c : U32) (h : Memory.Mapped m a (a + 4 * n)) :
    ∃ d, calcLoop T m n a c = .sum d := by
  induction n with
  | zero => exact ⟨c, rfl⟩
  | succ n ih =>
    obtain ⟨d, hd⟩ := ih fun x hlo hhi => h x hlo (by omega)
    obtain ⟨g, hg⟩ := h.readGroup (a := a + 4 * n) (by omega) (by omega)
    exact ⟨_, calcLoop_snoc hd hg⟩

/-- After `n` groups that answer, the loop goes on behind them with their sum. -/
theorem calcLoop_add {T : Table} {m : Memory} {n a : Nat} {c d : U32} (k : Nat)
    (h : calcLoop T m n a c = .sum d) : calcLoop T m (n + k) a c = calcLoop T m k (a + 4 * n) d := by
  induction n generalizing a c with
  | zero => cases h; rw [Nat.zero_add, Nat.mul_zero, Nat.add_zero]
  | succ n ih =>
    cases hg : Memory.readGroup m a with
    | none => cases (calcLoop_succ_none hg).symm.trans h
    | some g =>
      have haddr : a + 4 * (n + 1) = a + 4 + 4 * n := by omega
      rw [calcLoop_succ_some hg] at h
      rw [Nat.add_right_comm, calcLoop_succ_some hg, ih h, haddr]

/-- The loop stops at the lowest failing group: the groups below it have a sum, and its own read fails. -/
theorem calcLoop_of_lowestFailure (T : Table) {m : Memory} {n k a : Nat} (c : U32) (hk : k < n)
    (h : Memory.LowestFailure m a k) : calcLoop T m n a c = .bus (a + 4 * k) := by
  obtain ⟨d, hd⟩ := calcLoop_of_mapped T c h.below
  obtain ⟨r, rfl⟩ := Nat.exists_eq_add_of_lt hk
  rw [Nat.add_assoc, calcLoop_add (r + 1) hd]
  exact calcLoop_succ_none (Memory.readGroup_eq_none.2 h.unmapped)

/-! ## What a refusing command answers and leaves -/

/-- A command that raises an error answers that error and leaves `TV`, `POLY`, the table and the memory (R128). -/
theorem exec_raise_frame {i : Instr} {s : State} {e : Err} {info : U32}
    (h : exec i s = .next (State.raise e info s)) :
    ∃ t, exec i s = .next t ∧ State.SameTable s t ∧ State.CommandFrame s t (.error e info) :=
  ⟨_, h, ⟨rfl, rfl, rfl⟩, rfl, fun _ => rfl, rfl, rfl⟩

/-- `BUILD` at a block with a table (R123). -/
theorem exec_build_locked {s : State} (p : U32) (htv : s.tv = true) :
    exec (.build p) s = .next (State.raise .locked 0#32 s) := by
  obtain ⟨_, h⟩ | ⟨hf, _⟩ := @execBuild_cases p s
  · exact h
  · cases htv.symm.trans hf

/-- `RDTBL` at a block without a table (R122). -/
theorem exec_rdtbl_noTable {s : State} (x : Byte) (htv : s.tv = false) :
    exec (.rdtbl x) s = .next (State.raise .noTable 0#32 s) := by
  obtain ⟨_, h⟩ | ⟨ht, _⟩ := @execRdtbl_cases x s
  · exact h
  · cases htv.symm.trans ht

/-- Without a table the check of `CALC` stops at R122's. -/
theorem calcCheck_noTable {s : State} (b l : U32) (htv : s.tv = false) :
    calcCheck b l s = some (.noTable, 0#32) := by
  simp only [calcCheck, State.tableValid_eq, htv]

/-- A partial group is refused by the length check (R124). -/
theorem calcCheck_length {l : U32} {s : State} (b : U32) (htv : s.tv = true) (hlen : l.toNat % 4 ≠ 0) :
    calcCheck b l s = some (.length, l) := by
  have hpartial : lengthOk l = false := Bool.eq_false_iff.2 fun h => hlen (lengthOk_iff.1 h)
  simp only [calcCheck, State.tableValid_eq, htv, hpartial]

/-- A whole number of groups that passes the top of the address space is refused by the range check (R125). -/
theorem calcCheck_range {b l : U32} {s : State} (htv : s.tv = true) (hlen : l.toNat % 4 = 0)
    (hrange : 2 ^ 32 < b.toNat + l.toNat) : calcCheck b l s = some (.range, b) := by
  have hpast : rangeOk b l = false := Bool.eq_false_iff.2 fun h => Nat.not_le.2 hrange (rangeOk_iff.1 h)
  simp only [calcCheck, State.tableValid_eq, htv, lengthOk_iff.2 hlen, hpast]

/-- The three checks of `CALC`, in the terms of the rules (R93, R94, R125). -/
theorem calcCheck_pass {b l : U32} {s : State} (htv : s.tv = true) (hlen : l.toNat % 4 = 0)
    (hrange : b.toNat + l.toNat ≤ 2 ^ 32) : calcCheck b l s = none :=
  calcCheck_eq_none.2 ⟨htv, lengthOk_iff.2 hlen, rangeOk_iff.2 hrange⟩

/-- A `CALC` whose checks pass and whose loop stops at `a` raises `E_BUS` there (R126). -/
theorem exec_calculate_of_bus {b l : U32} {a : Nat} {s : State} (hc : calcCheck b l s = none)
    (hbus : calcLoop s.table s.mem (groupCount l) (bufferAddr b 0) initCrc = .bus a) :
    exec (.calculate b l) s = .next (State.raise .bus (busInfo a) s) := by
  rw [exec, execCalc_checked hc, hbus, State.endCalc]

/-- Settles O22: a valid table refuses every polynomial. -/
theorem secondBuildIsLocked : Obligations.SecondBuildIsLocked :=
  fun p _ htv => exec_raise_frame (exec_build_locked p htv)

/-- Settles O24: the table is the first thing that each of the two commands asks for. -/
theorem noTableRefusesCalcAndRdtbl : Obligations.NoTableRefusesCalcAndRdtbl := by
  intro i s htv hno
  cases i with
  | build p => exact absurd rfl (hno p)
  | calculate b l => exact exec_raise_frame (exec_calculate_refused (calcCheck_noTable b l htv))
  | rdtbl x => exact exec_raise_frame (exec_rdtbl_noTable x htv)

/-- How a `CALC` of whole groups whose checks pass is answered: a checksum of a mapped buffer, or `E_BUS` at the lowest
failing group (R93, R126). -/
def State.CheckedAnswer (s : State) (b l : U32) (r : Response) : Prop :=
  (∃ c, r = .ok c ∧ Memory.Mapped s.mem b.toNat (b.toNat + l.toNat)) ∨
    (∃ k j, k < l.toNat / 4 ∧ j < 4 ∧ r = .error .bus (BitVec.ofNat 32 (b.toNat + 4 * k)) ∧
      Memory.read s.mem (b.toNat + 4 * k + j) = none ∧ Memory.Mapped s.mem b.toNat (b.toNat + 4 * k))

/-- The buffer is mapped or has a lowest failing group, and the loop ends accordingly. -/
theorem exec_calculate_checked {b l : U32} {s : State} (hc : calcCheck b l s = none) :
    ∃ t r, exec (.calculate b l) s = .next t ∧ t.responses = r :: s.responses ∧ State.CheckedAnswer s b l r := by
  obtain hmapped | ⟨k, hk, hfail⟩ := Memory.mapped_or_lowestFailure s.mem (bufferAddr b 0) (groupCount l)
  · obtain ⟨c, hsum⟩ := calcLoop_of_mapped s.table initCrc hmapped
    obtain ⟨t, ht, _, _, hframe⟩ := exec_calculate_of_sum hc hsum
    obtain ⟨_, hlen, _⟩ := calcCheck_eq_none.1 hc
    have hbytes : 4 * groupCount l = l.toNat :=
      Nat.mul_div_cancel' (Nat.dvd_of_mod_eq_zero (lengthOk_iff.1 hlen))
    exact ⟨t, _, ht, hframe.responses, .inl ⟨c, rfl, hbytes ▸ hmapped⟩⟩
  · obtain ⟨j, hj, hnone⟩ := hfail.unmapped
    have hbus := calcLoop_of_lowestFailure s.table initCrc hk hfail
    exact ⟨_, _, exec_calculate_of_bus hc hbus, rfl, .inr ⟨k, j, hk, hj, rfl, hnone, hfail.below⟩⟩

/-- A checksum and `E_BUS` are no `E_RANGE`. -/
theorem State.CheckedAnswer.ne_range {s : State} {b l : U32} {r : Response} (h : State.CheckedAnswer s b l r)
    (info : U32) : r ≠ .error .range info := by
  obtain ⟨c, rfl, _⟩ | ⟨k, j, _, _, rfl, _⟩ := h
  · exact Response.noConfusion
  · simp

/-- Settles O30: the range check refuses past the top, and passed checks lead to another answer; an empty buffer ends
where it begins, below the top. -/
theorem calcRefusesBuffersPastTheTop : Obligations.CalcRefusesBuffersPastTheTop := by
  intro b l s htv hlen
  refine ⟨fun hpast => ?_, fun hfits => ?_, ?_⟩
  · exact exec_raise_frame (exec_calculate_refused (calcCheck_range htv hlen hpast))
  · obtain ⟨t, r, ht, hr, hans⟩ := exec_calculate_checked (calcCheck_pass htv hlen hfits)
    exact ⟨t, r, ht, hr, hans.ne_range⟩
  · rintro rfl
    exact Nat.le_of_lt b.isLt

/-- Settles O31: the named group is the lowest failing one, and the loop stops there. -/
theorem calcReportsTheLowestUnmappedGroup : Obligations.CalcReportsTheLowestUnmappedGroup := by
  intro b l s k j htv hlen hrange hk hj hunmapped hbelow
  have hfail : Memory.LowestFailure s.mem (bufferAddr b 0) k := ⟨⟨j, hj, hunmapped⟩, hbelow⟩
  exact exec_raise_frame (exec_calculate_of_bus (calcCheck_pass htv hlen hrange)
    (calcLoop_of_lowestFailure s.table initCrc hk hfail))

/-! ## One error, in the order of R127 -/

/-- What the block answers to a command: the first error of R127 that applies, or the result. -/
def State.AnswersInOrder (s : State) : Instr → Response → Prop
  | .build _, r => r = if s.tv then .error .locked 0#32 else .ok 0#32
  | .rdtbl x, r => r = if s.tv then .ok (Table.get s.table x) else .error .noTable 0#32
  | .calculate b l, r =>
    if s.tv = false then r = .error .noTable 0#32
    else if l.toNat % 4 ≠ 0 then r = .error .length l
    else if 2 ^ 32 < b.toNat + l.toNat then r = .error .range b
    else State.CheckedAnswer s b l r

/-- The checks of `CALC` come in R127's order, and the group loop after them. -/
theorem exec_calculate_answersInOrder (b l : U32) (s : State) :
    ∃ t r, exec (.calculate b l) s = .next t ∧ t.responses = r :: s.responses ∧
      State.AnswersInOrder s (.calculate b l) r := by
  simp only [State.AnswersInOrder]
  split
  case isTrue htv => exact ⟨_, _, exec_calculate_refused (calcCheck_noTable b l htv), rfl, rfl⟩
  case isFalse htv =>
    have htv : s.tv = true := Bool.eq_true_of_not_eq_false htv
    split
    case isTrue hlen => exact ⟨_, _, exec_calculate_refused (calcCheck_length b htv hlen), rfl, rfl⟩
    case isFalse hlen =>
      have hlen : l.toNat % 4 = 0 := not_not.1 hlen
      split
      case isTrue hpast => exact ⟨_, _, exec_calculate_refused (calcCheck_range htv hlen hpast), rfl, rfl⟩
      case isFalse hfits => exact exec_calculate_checked (calcCheck_pass htv hlen (Nat.not_lt.1 hfits))

/-- Every command answers in R127's order. -/
theorem exec_answersInOrder (i : Instr) (s : State) :
    ∃ t r, exec i s = .next t ∧ t.responses = r :: s.responses ∧ State.AnswersInOrder s i r := by
  cases i with
  | calculate b l => exact exec_calculate_answersInOrder b l s
  | build p =>
    cases htv : s.tv with
    | true => exact ⟨_, _, exec_build_locked p htv, rfl, by simp [State.AnswersInOrder, htv]⟩
    | false => exact ⟨_, _, exec_build p htv, rfl, by simp [State.AnswersInOrder, htv]⟩
  | rdtbl x =>
    cases htv : s.tv with
    | true => exact ⟨_, _, exec_rdtbl x htv, rfl, by simp [State.AnswersInOrder, htv]⟩
    | false => exact ⟨_, _, exec_rdtbl_noTable x htv, rfl, by simp [State.AnswersInOrder, htv]⟩

/-- Settles O37: the word is illegal, or it is the word of one command, which answers in R127's order. -/
theorem oneErrorInPriorityOrder : Obligations.OneErrorInPriorityOrder := by
  intro s w rest hq hm
  cases hd : decode w with
  | illegal why =>
    have hno : ∀ i, w ≠ encode i := fun i hw => by cases hd.symm.trans (decode_eq_instr_iff.2 hw)
    exact ⟨_, _, step_illegal hm hq hd, rfl, fun _ => rfl, fun _ hw => absurd hw (hno _),
      fun _ hw => absurd hw (hno _), fun _ _ hw => absurd hw (hno _)⟩
  | instr i =>
    obtain ⟨t, r, ht, hr, hans⟩ := exec_answersInOrder i (State.takeMove rest s)
    have hinstr : ∀ i', w = encode i' → State.AnswersInOrder s i' r := fun i' hw => by
      cases hd.symm.trans (decode_eq_instr_iff.2 hw)
      exact hans
    refine ⟨t, r, (step_command hm hq hd).trans ht, hr, fun hill => ?_, fun _ => hinstr _, fun _ => hinstr _,
      fun _ _ => hinstr _⟩
    obtain ⟨why, hd'⟩ := CmdWord.wellFormed_eq_false_iff.1 hill
    cases hd.symm.trans hd'

/-! ## Errors are precise (R128) -/

/-- A command that ends in an error leaves the table: the only command that writes it answers OK. -/
theorem exec_error_sameTable {i : Instr} {s t : State} {e : Err} {info : U32} (h : exec i s = .next t)
    (hr : t.responses = .error e info :: s.responses) : State.SameTable s t := by
  obtain ⟨_, _, _, hb⟩ | ⟨u, hu, same⟩ := exec_table_cases i s
  · cases hb.symm.trans h
    cases hr
  · cases hu.symm.trans h
    exact same

/-- Settles O38: an illegal word raises at once, and every command ends idle with the memory as it was. -/
theorem errorsArePrecise : Obligations.ErrorsArePrecise := by
  intro s t w rest e info hq hm h hr
  cases hd : decode w with
  | illegal why =>
    cases (step_illegal hm hq hd).symm.trans h
    exact ⟨⟨rfl, rfl, rfl⟩, rfl, fun _ => rfl⟩
  | instr i =>
    have hx : exec i (State.takeMove rest s) = .next t := (step_command hm hq hd).symm.trans h
    obtain ⟨u, _, hu, hidle, _, hmem, _⟩ := exec_answers i (State.takeMove rest s)
    cases hu.symm.trans hx
    exact ⟨.of_takeMove (exec_error_sameTable hx hr), hidle, fun _ => by rw [hmem, State.takeMove_mem]⟩

end Sys2Proof.Machine
end

section
/-!
PROOF. Reset and what the host can tell (70_reset_and_hazards.md R150 to R152, R157; O39, O40, O52, O57): what a reset
and a block without a table answer, the bound on a command's internal steps, and that no response depends on an
unspecified element. The relation between two runs is shown for acceptance and for one internal step; the atomic
reading of a command is these two in a row.
-/

namespace Sys2Proof.Machine

/-! ## Reset and the block without a table (R150, R152) -/

/-- Settles O39: the law of a reset step, field by field. -/
theorem resetActsInAnyState : Obligations.ResetActsInAnyState :=
  fun _ _ hm => ⟨_, step_reset hm, rfl, rfl, rfl, rfl, fun _ => rfl⟩

/-- Settles O40: without a table an illegal word and every command but `BUILD` are answered with an error. -/
theorem withoutTableOnlyBuildSucceeds : Obligations.WithoutTableOnlyBuildSucceeds := by
  intro s t w rest v htv hq hm h hr
  cases hd : decode w with
  | illegal why =>
    cases (step_illegal hm hq hd).symm.trans h
    cases hr
  | instr i =>
    by_contra hno
    have hother : ∀ p, i ≠ .build p := fun p hi => hno ⟨p, decode_eq_instr_iff.1 (hi ▸ hd)⟩
    obtain ⟨u, hu, _, hframe⟩ := noTableRefusesCalcAndRdtbl i (State.takeMove rest s) htv hother
    cases hu.symm.trans ((step_command hm hq hd).symm.trans h)
    cases hframe.responses.symm.trans hr

/-! ## The bound on the internal steps (R157) -/

/-- Settles O57: after all its internal steps a command is where the atomic reading ends, idle and with one response
more. -/
theorem everyCommandRespondsInBoundedSteps : Obligations.EveryCommandRespondsInBoundedSteps := by
  intro i s _
  obtain ⟨t, r, ht, hidle, hresp, _⟩ := exec_answers i s
  cases ht.symm.trans (exec_eq_microSteps i s)
  exact ⟨internalSteps i, r, Nat.le_refl _, hidle, hresp⟩

/-! ## Acceptance, by what it finds (R75, R99) -/

/-- Acceptance of a `BUILD` at a block with a table. -/
theorem accept_build_locked {s : State} (p : U32) (htv : s.tv = true) :
    accept (.build p) s = State.raise .locked 0#32 s := by
  simp only [accept, acceptBuild, State.tableValid_eq, htv]

/-- Acceptance of a `CALC` that a check refuses. -/
theorem accept_calculate_refused {b l info : U32} {e : Err} {s : State} (hc : calcCheck b l s = some (e, info)) :
    accept (.calculate b l) s = State.raise e info s := by
  simp only [accept, acceptCalc, hc]

/-- Acceptance of a `CALC` whose checks pass. -/
theorem accept_calculate_checked {b l : U32} {s : State} (hc : calcCheck b l s = none) :
    accept (.calculate b l) s = { s with crc := initCrc, seq := .calculating b l 0 } := by
  simp only [accept, acceptCalc, hc]

/-- Acceptance of an `RDTBL` at a block with a table. -/
theorem accept_rdtbl {s : State} (x : Byte) (htv : s.tv = true) :
    accept (.rdtbl x) s = State.respondOk (Table.get s.table x) (State.loseCrc s) := by
  simp only [accept, acceptRdtbl, State.tableValid_eq, htv]

/-- Acceptance of an `RDTBL` at a block without a table. -/
theorem accept_rdtbl_noTable {s : State} (x : Byte) (htv : s.tv = false) :
    accept (.rdtbl x) s = State.raise .noTable 0#32 s := by
  simp only [accept, acceptRdtbl, State.tableValid_eq, htv]

/-! ## What a busy sequencer has written (R75, R99) -/

theorem State.sameProgress_idle {s : State} (h : s.seq = .idle) (t : State) : State.SameProgress s t := by
  simp [State.SameProgress, h]

theorem State.sameProgress_building {s t : State} {i : Nat} (h : s.seq = .building i) :
    State.SameProgress s t ↔
      s.poly = t.poly ∧ ∀ j : Byte, j.toNat < i → Table.get s.table j = Table.get t.table j := by
  simp [State.SameProgress, h]

theorem State.sameProgress_calculating {s t : State} {b l : U32} {pos : Nat} (h : s.seq = .calculating b l pos) :
    State.SameProgress s t ↔ s.table = t.table ∧ s.crc = t.crc := by
  simp [State.SameProgress, h]

/-- Writing one value at entry `i` of two tables that agree below it makes them agree up to it. -/
theorem Table.get_set_agree {t u : Table} {i : Nat} (h : ∀ j : Byte, j.toNat < i → Table.get t j = Table.get u j)
    (v : U32) {j : Byte} (hj : j.toNat < i + 1) :
    Table.get (Table.set t (BitVec.ofNat 8 i) v) j = Table.get (Table.set u (BitVec.ofNat 8 i) v) j := by
  by_cases e : BitVec.ofNat 8 i = j
  · rw [e, Table.get_set_same, Table.get_set_same]
  · have hne : j.toNat ≠ i := fun hji => e (by rw [← hji, BitVec.ofNat_toNat, BitVec.setWidth_eq])
    rw [Table.get_set_other t v e, Table.get_set_other u v e]
    exact h j (by omega)

/-! ## Two runs that differ in unspecified elements only (R151) -/

namespace State.SameButUnspecified

variable {s t : State}

/-- Taking the host's move. -/
theorem takeMove (h : State.SameButUnspecified s t) (rest : List HostMove) :
    State.SameButUnspecified (State.takeMove rest s) (State.takeMove rest t) :=
  ⟨h.tv, h.seq, h.mem, rfl, h.responses, h.table, h.progress⟩

/-- A change of memory between commands. -/
theorem changeMemory (h : State.SameButUnspecified s t) (a : U32) (v : Option Byte) :
    State.SameButUnspecified (State.changeMemory a v s) (State.changeMemory a v t) :=
  ⟨h.tv, h.seq, congrArg (Memory.update · a.toNat v) h.mem, h.moves, h.responses, h.table, h.progress⟩

/-- A reset leaves nothing of the block but `TV` and `SEQ` specified. -/
theorem applyReset (h : State.SameButUnspecified s t) :
    State.SameButUnspecified (State.applyReset s) (State.applyReset t) :=
  ⟨rfl, rfl, h.mem, h.moves, h.responses, fun htv => by simp at htv, State.sameProgress_idle rfl _⟩

/-- The end of a command with one response, however far the command was. -/
theorem deliver (h : State.SameButUnspecified s t) (r : Response) :
    State.SameButUnspecified (State.deliver r s) (State.deliver r t) :=
  ⟨h.tv, rfl, h.mem, h.moves, congrArg (r :: ·) h.responses, h.table, State.sameProgress_idle rfl _⟩

/-- `CRC` may be lost just before the response. -/
theorem deliver_loseCrc (h : State.SameButUnspecified s t) (r : Response) :
    State.SameButUnspecified (State.deliver r (State.loseCrc s)) (State.deliver r (State.loseCrc t)) :=
  ⟨h.tv, rfl, h.mem, h.moves, congrArg (r :: ·) h.responses, h.table, State.sameProgress_idle rfl _⟩

/-- Acceptance: both blocks find the same `TV`, so both refuse with the same error or go on; what it answers or lets
the sequencer use is a valid table or written by the acceptance itself. -/
theorem accept (h : State.SameButUnspecified s t) (i : Instr) :
    State.SameButUnspecified (accept i s) (accept i t) := by
  cases i with
  | build p =>
    cases htv : s.tv with
    | true =>
      rw [accept_build_locked p htv, accept_build_locked p (h.tv ▸ htv)]
      exact h.deliver_loseCrc _
    | false =>
      rw [accept_build p htv, accept_build p (h.tv ▸ htv)]
      exact ⟨h.tv, rfl, h.mem, h.moves, h.responses, h.table,
        (State.sameProgress_building rfl).2 ⟨rfl, fun _ hj => absurd hj (Nat.not_lt_zero _)⟩⟩
  | calculate b l =>
    have hcheck := calcCheck_congr h.tv b l
    cases hc : calcCheck b l s with
    | some refusal =>
      obtain ⟨e, info⟩ := refusal
      rw [accept_calculate_refused hc, accept_calculate_refused (hcheck ▸ hc)]
      exact h.deliver_loseCrc _
    | none =>
      obtain ⟨htv, _⟩ := calcCheck_eq_none.1 hc
      rw [accept_calculate_checked hc, accept_calculate_checked (hcheck ▸ hc)]
      exact ⟨h.tv, rfl, h.mem, h.moves, h.responses, h.table,
        (State.sameProgress_calculating rfl).2 ⟨h.table htv, rfl⟩⟩
  | rdtbl x =>
    cases htv : s.tv with
    | true =>
      rw [accept_rdtbl x htv, accept_rdtbl x (h.tv ▸ htv), h.table htv]
      exact h.deliver_loseCrc _
    | false =>
      rw [accept_rdtbl_noTable x htv, accept_rdtbl_noTable x (h.tv ▸ htv)]
      exact h.deliver_loseCrc _

/-- An internal step uses only what the sequencer has written: `POLY` and the entries below `i` in a `BUILD`, the table
and `CRC` in a `CALC`. The last step of a `BUILD` validates a table of which every entry is written. -/
theorem microStep (h : State.SameButUnspecified s t) :
    State.SameButUnspecified (microStep s) (microStep t) := by
  cases microStep_cases s with
  | idle hq hs =>
    rw [hs, microStep_idle (h.seq ▸ hq)]
    exact h
  | entry i hq hi hs =>
    obtain ⟨hpoly, hbelow⟩ := (State.sameProgress_building hq).1 h.progress
    rw [hs, microStep_building (h.seq ▸ hq) hi, hpoly]
    exact ⟨h.tv, rfl, h.mem, h.moves, h.responses, fun htv => by rw [h.table htv],
      (State.sameProgress_building rfl).2 ⟨rfl, fun _ hj => Table.get_set_agree hbelow _ hj⟩⟩
  | built i hq hi hs =>
    obtain ⟨_, hbelow⟩ := (State.sameProgress_building hq).1 h.progress
    have htable : s.table = t.table := Table.ext_get fun j => hbelow j (Nat.lt_of_lt_of_le j.isLt hi)
    rw [hs, microStep_built (h.seq ▸ hq) hi]
    exact ⟨rfl, rfl, h.mem, h.moves, congrArg (_ :: ·) h.responses, fun _ => htable,
      State.sameProgress_idle rfl _⟩
  | group b l pos g hq hp hg hs =>
    obtain ⟨htable, hcrc⟩ := (State.sameProgress_calculating hq).1 h.progress
    rw [hs, microStep_group (h.seq ▸ hq) hp (h.mem ▸ hg), htable, hcrc]
    exact ⟨h.tv, rfl, h.mem, h.moves, h.responses, fun _ => rfl,
      (State.sameProgress_calculating rfl).2 ⟨rfl, rfl⟩⟩
  | bus b l pos hq hp hg hs =>
    rw [hs, microStep_bus (h.seq ▸ hq) hp (h.mem ▸ hg)]
    exact h.deliver_loseCrc _
  | sum b l pos hq hp hs =>
    obtain ⟨_, hcrc⟩ := (State.sameProgress_calculating hq).1 h.progress
    rw [hs, microStep_sum (h.seq ▸ hq) hp, hcrc]
    exact h.deliver _

theorem microSteps (h : State.SameButUnspecified s t) (n : Nat) :
    State.SameButUnspecified (microSteps n s) (microSteps n t) := by
  induction n generalizing s t with
  | zero => exact h
  | succ n ih => exact ih h.microStep

/-- A command in the atomic reading: its acceptance and its internal steps in a row (R75, R99). -/
theorem exec (h : State.SameButUnspecified s t) (i : Instr) :
    ∃ s' t', exec i s = .next s' ∧ exec i t = .next t' ∧ State.SameButUnspecified s' t' :=
  ⟨_, _, exec_eq_microSteps i s, exec_eq_microSteps i t, (h.accept i).microSteps _⟩

/-- Both blocks have the same `SEQ` and the same next move, so both take the same kind of step. -/
theorem step (h : State.SameButUnspecified s t) :
    ∃ s' t', step s = .next s' ∧ step t = .next t' ∧ State.SameButUnspecified s' t' := by
  cases step_cases s with
  | reset rest hm hs => exact ⟨_, _, hs, step_reset (h.moves ▸ hm), (h.takeMove rest).applyReset⟩
  | busy hr hq hs => exact ⟨_, _, hs, step_busy (h.moves ▸ hr) (h.seq ▸ hq), h.microStep⟩
  | quiet hm hq hs => exact ⟨_, _, hs, step_quiet (h.moves ▸ hm) (h.seq ▸ hq), h⟩
  | memory a v rest hm hq hs =>
    exact ⟨_, _, hs, step_memory (h.moves ▸ hm) (h.seq ▸ hq), (h.takeMove rest).changeMemory a v⟩
  | command w i rest hm hq hd hs =>
    rw [hs, step_command (h.moves ▸ hm) (h.seq ▸ hq) hd]
    exact (h.takeMove rest).exec i
  | stepwise w i rest hm hq hd hs =>
    exact ⟨_, _, hs, step_stepwise (h.moves ▸ hm) (h.seq ▸ hq) hd, (h.takeMove rest).accept i⟩
  | illegal w why rest hm hq hd hs =>
    refine ⟨_, _, hs, ?_, (h.takeMove rest).deliver_loseCrc _⟩
    obtain hm | hm := hm
    · exact step_illegal (h.moves ▸ hm) (h.seq ▸ hq) hd
    · exact step_stepwise_illegal (h.moves ▸ hm) (h.seq ▸ hq) hd

end State.SameButUnspecified

/-- Settles O52: `State.SameButUnspecified.step`, which follows the cases of a step. -/
theorem unspecifiedElementsAreNeverObserved : Obligations.UnspecifiedElementsAreNeverObserved := by
  intro s t s' t' h hs ht
  obtain ⟨u, v, hu, hv, same⟩ := h.step
  cases hu.symm.trans hs
  cases hv.symm.trans ht
  exact same

end Sys2Proof.Machine
end

section
/-!
PROOF. The machine never stops (log entries 10, 12, 16; O43, O45): every case of a step answers a next state, and an idle
block without a move of the host answers the same one.
-/

namespace Sys2Proof.Machine

/-- Settles O43: a step's own law for an idle block without a move. -/
theorem idleBlockWithoutMoveWaits : Obligations.IdleBlockWithoutMoveWaits :=
  fun _ hq hm => step_quiet hm hq

/-- Settles O45: only an atomic command leaves a step's answer to `exec`, and every command answers a next state. -/
theorem everyStepAnswersANextState : Obligations.EveryStepAnswersANextState := by
  intro s
  cases step_cases s with
  | command w i rest _ _ _ hs =>
    obtain ⟨t, _, ht, _⟩ := exec_answers i (State.takeMove rest s)
    exact ⟨t, hs.trans ht⟩
  | reset _ _ hs => exact ⟨_, hs⟩
  | busy _ _ hs => exact ⟨_, hs⟩
  | quiet _ _ hs => exact ⟨_, hs⟩
  | memory _ _ _ _ _ hs => exact ⟨_, hs⟩
  | stepwise _ _ _ _ _ _ hs => exact ⟨_, hs⟩
  | illegal _ _ _ _ _ _ hs => exact ⟨_, hs⟩

end Sys2Proof.Machine
end
